-- ==== Sys2Proof/Word.lean ====
section
/-! DEFINITION. FieldBit and Word32: the block's two data types (spec/10_state.md R10, R11).
The functions on them are in Machine/FieldOps.lean; how a FieldBit sits inside an arbitrary
field `F` is in Machine/FieldForms.lean. -/

namespace Sys2Proof

/-- A field element restricted to `{0_F, 1_F}` (R10). R12 allows a model any type isomorphic to the
subtype of `F`; this one has exactly the two values, so a non-binary element has no representation
(log entry 1). -/
inductive FieldBit where
  /-- the field's zero, `0_F` -/
  | zero
  /-- the field's one, `1_F` -/
  | one
  deriving DecidableEq, Repr, Inhabited

/-- Thirty-two FieldBits, index 0 the most significant (R11): the length is part of the type, so a
sequence of another length is no Word32. -/
abbrev Word32 := Vector FieldBit 32

/-- The Word32 whose every element is `0_F`. -/
def Word32.zero : Word32 := Vector.replicate 32 FieldBit.zero

end Sys2Proof
end

