-- ==== Sys2Proof/Syntax.lean ====
section
/-! DEFINITION. The command set: one constructor per row of spec/opcode_table.json, with the
immediate operand of its format (spec/30_encoding.md R62, R66, R67). The typed payload that a
command also takes is not part of the command word; it stands on the command port
(`Machine.State.payload`). -/

namespace Sys2Proof

/-- The 28 commands of R66, in the table's order. -/
inductive Instr where
  /-- TOBITS, R80 -/
  | toBits
  /-- HEX2BITS, R84 -/
  | hexToBits
  /-- BITS2HEX, R85 -/
  | bitsToHex
  /-- PAD, R81 -/
  | pad
  /-- FAND, R109 -/
  | fAnd
  /-- FOR, R110 -/
  | fOr
  /-- FXOR, R111 -/
  | fXor
  /-- FNOT, R112 -/
  | fNot
  /-- FROTR, R113: `n` is `imm bits[7:0]` -/
  | fRotr (n : Fin 256)
  /-- FSHR, R114: `n` is `imm bits[7:0]` -/
  | fShr (n : Fin 256)
  /-- FADD, R115: `k` is `imm bits[2:0]`; 1 to 5 are legal -/
  | fAdd (k : Fin 8)
  /-- RDH, R123: `i` is `imm bits[2:0]` -/
  | rdH (i : Fin 8)
  /-- RDK, R124: `t` is `imm bits[5:0]` -/
  | rdK (t : Fin 64)
  /-- SSIG0, R130 -/
  | sSig0
  /-- SSIG1, R131 -/
  | sSig1
  /-- BSIG0, R132 -/
  | bSig0
  /-- BSIG1, R133 -/
  | bSig1
  /-- CH, R134 -/
  | ch
  /-- MAJ, R135 -/
  | maj
  /-- SCHED, R136 -/
  | sched
  /-- ROUND, R137: `t` is `imm bits[5:0]` -/
  | round (t : Fin 64)
  /-- COMPRESS, R139 -/
  | compress
  /-- HASH, R151 -/
  | hash
  /-- HASHX, R153 -/
  | hashX
  /-- DINIT, R161: `p` is `imm bits[0]`, a prior state stands in the payload -/
  | dInit (p : Bool)
  /-- DSTEP, R163 -/
  | dStep
  /-- DSTAT, R167 -/
  | dStat
  /-- DDROP, R168 -/
  | dDrop
  deriving DecidableEq, Repr

end Sys2Proof
end

