-- ==== Sys2Proof/WellFormed.lean ====
section
/-! DEFINITION. Which terms of `Instr` are commands the encoding admits (spec/30_encoding.md R67):
every immediate range is in the operand's type but FADD's, whose values 0, 6 and 7 are illegal. -/

namespace Sys2Proof

/-- `i` is a command of R66 with a legal immediate. -/
def Instr.wellFormed : Instr → Bool
  | .fAdd k => 1 ≤ k.val && k.val ≤ 5
  | .toBits | .hexToBits | .bitsToHex | .pad => true
  | .fAnd | .fOr | .fXor | .fNot => true
  | .fRotr _ | .fShr _ => true
  | .rdH _ | .rdK _ => true
  | .sSig0 | .sSig1 | .bSig0 | .bSig1 | .ch | .maj | .sched => true
  | .round _ | .compress => true
  | .hash | .hashX => true
  | .dInit _ | .dStep | .dStat | .dDrop => true

end Sys2Proof
end

