-- ==== Sys2Proof/Decode.lean ====
section
/-! DEFINITION. The command word (spec/30_encoding.md R61, R62, R66, R68, R70): decoding, total on
every 16-bit word and rejecting by name, and the encoder, written from the same table. -/

namespace Sys2Proof

/-- Why a command word is illegal, in the order R70 makes the checks. -/
inductive DecodeError where
  /-- R68 (a): `op` is not one of the 28 opcodes -/
  | unassignedOpcode
  /-- R68 (b): a bit of `imm` that the format requires to be zero is one -/
  | reservedImmediate
  /-- R68 (c): FADD with `k` of 0, 6 or 7 -/
  | faddCount
  deriving DecidableEq, Repr

/-- `cw bits[15:8]` (R61). -/
def opField (cw : BitVec 16) : BitVec 8 := cw.extractLsb' 8 8

/-- `cw bits[7:0]` (R61). -/
def immField (cw : BitVec 16) : BitVec 8 := cw.extractLsb' 0 8

/-- Format N: `imm bits[7:0]` must be 0 (R62). -/
def formatN (imm : BitVec 8) (i : Instr) : Except DecodeError Instr :=
  if imm = 0 then .ok i else .error .reservedImmediate

/-- Format I8: `imm bits[7:0] = n`, all values legal (R62). -/
def formatI8 (imm : BitVec 8) (mk : Fin 256 → Instr) : Except DecodeError Instr :=
  .ok (mk imm.toFin)

/-- Format I3: `imm bits[7:3]` must be 0, `imm bits[2:0]` is the operand (R62). -/
def formatI3 (imm : BitVec 8) (mk : Fin 8 → Except DecodeError Instr) : Except DecodeError Instr :=
  if imm.extractLsb' 3 5 = 0 then mk (imm.extractLsb' 0 3).toFin else .error .reservedImmediate

/-- Format I6: `imm bits[7:6]` must be 0, `imm bits[5:0] = t`, all legal (R62). -/
def formatI6 (imm : BitVec 8) (mk : Fin 64 → Instr) : Except DecodeError Instr :=
  if imm.extractLsb' 6 2 = 0 then .ok (mk (imm.extractLsb' 0 6).toFin)
  else .error .reservedImmediate

/-- Format P: `imm bits[7:1]` must be 0, `imm bits[0] = P` (R62). -/
def formatP (imm : BitVec 8) (mk : Bool → Instr) : Except DecodeError Instr :=
  if imm.extractLsb' 1 7 = 0 then .ok (mk (imm.getLsbD 0)) else .error .reservedImmediate

/-- The operand counts FADD admits, `1 ≤ k ≤ 5` (R67, R115). -/
def faddCountOk (k : Fin 8) : Bool := 1 ≤ k.val && k.val ≤ 5

/-- FADD's own check, after the reserved bits (R68 c, R70). -/
def faddOperand (k : Fin 8) : Except DecodeError Instr :=
  if faddCountOk k then .ok (.fAdd k) else .error .faddCount

/-- The command a command word selects (R66), or which of the checks (a), (b), (c) of R68 fails. -/
def decode (cw : BitVec 16) : Except DecodeError Instr :=
  match (opField cw).toNat with
  | 0x01 => formatN (immField cw) .toBits
  | 0x02 => formatN (immField cw) .hexToBits
  | 0x03 => formatN (immField cw) .bitsToHex
  | 0x04 => formatN (immField cw) .pad
  | 0x10 => formatN (immField cw) .fAnd
  | 0x11 => formatN (immField cw) .fOr
  | 0x12 => formatN (immField cw) .fXor
  | 0x13 => formatN (immField cw) .fNot
  | 0x14 => formatI8 (immField cw) .fRotr
  | 0x15 => formatI8 (immField cw) .fShr
  | 0x16 => formatI3 (immField cw) faddOperand
  | 0x20 => formatI3 (immField cw) fun i => .ok (.rdH i)
  | 0x21 => formatI6 (immField cw) .rdK
  | 0x30 => formatN (immField cw) .sSig0
  | 0x31 => formatN (immField cw) .sSig1
  | 0x32 => formatN (immField cw) .bSig0
  | 0x33 => formatN (immField cw) .bSig1
  | 0x34 => formatN (immField cw) .ch
  | 0x35 => formatN (immField cw) .maj
  | 0x36 => formatN (immField cw) .sched
  | 0x37 => formatI6 (immField cw) .round
  | 0x38 => formatN (immField cw) .compress
  | 0x40 => formatN (immField cw) .hash
  | 0x41 => formatN (immField cw) .hashX
  | 0x50 => formatP (immField cw) .dInit
  | 0x51 => formatN (immField cw) .dStep
  | 0x52 => formatN (immField cw) .dStat
  | 0x53 => formatN (immField cw) .dDrop
  | _ => .error .unassignedOpcode

/-- `op` and the value of `imm` that stand for a command (R61, R62, R66). -/
def encodeFields : Instr → Nat × Nat
  | .toBits => (0x01, 0)
  | .hexToBits => (0x02, 0)
  | .bitsToHex => (0x03, 0)
  | .pad => (0x04, 0)
  | .fAnd => (0x10, 0)
  | .fOr => (0x11, 0)
  | .fXor => (0x12, 0)
  | .fNot => (0x13, 0)
  | .fRotr n => (0x14, n.val)
  | .fShr n => (0x15, n.val)
  | .fAdd k => (0x16, k.val)
  | .rdH i => (0x20, i.val)
  | .rdK t => (0x21, t.val)
  | .sSig0 => (0x30, 0)
  | .sSig1 => (0x31, 0)
  | .bSig0 => (0x32, 0)
  | .bSig1 => (0x33, 0)
  | .ch => (0x34, 0)
  | .maj => (0x35, 0)
  | .sched => (0x36, 0)
  | .round t => (0x37, t.val)
  | .compress => (0x38, 0)
  | .hash => (0x40, 0)
  | .hashX => (0x41, 0)
  | .dInit p => (0x50, if p then 1 else 0)
  | .dStep => (0x51, 0)
  | .dStat => (0x52, 0)
  | .dDrop => (0x53, 0)

/-- The command word of a well-formed command (R61): `op` in bits 15:8, `imm` in bits 7:0. -/
def encode (i : Instr) : BitVec 16 :=
  BitVec.ofNat 8 (encodeFields i).1 ++ BitVec.ofNat 8 (encodeFields i).2

/-- The `match` and `mask` columns of a command's row of R66. -/
def opcodeRow : Instr → BitVec 16 × BitVec 16
  | .toBits => (0x0100, 0xFFFF)
  | .hexToBits => (0x0200, 0xFFFF)
  | .bitsToHex => (0x0300, 0xFFFF)
  | .pad => (0x0400, 0xFFFF)
  | .fAnd => (0x1000, 0xFFFF)
  | .fOr => (0x1100, 0xFFFF)
  | .fXor => (0x1200, 0xFFFF)
  | .fNot => (0x1300, 0xFFFF)
  | .fRotr _ => (0x1400, 0xFF00)
  | .fShr _ => (0x1500, 0xFF00)
  | .fAdd _ => (0x1600, 0xFFF8)
  | .rdH _ => (0x2000, 0xFFF8)
  | .rdK _ => (0x2100, 0xFFC0)
  | .sSig0 => (0x3000, 0xFFFF)
  | .sSig1 => (0x3100, 0xFFFF)
  | .bSig0 => (0x3200, 0xFFFF)
  | .bSig1 => (0x3300, 0xFFFF)
  | .ch => (0x3400, 0xFFFF)
  | .maj => (0x3500, 0xFFFF)
  | .sched => (0x3600, 0xFFFF)
  | .round _ => (0x3700, 0xFFC0)
  | .compress => (0x3800, 0xFFFF)
  | .hash => (0x4000, 0xFFFF)
  | .hashX => (0x4100, 0xFFFF)
  | .dInit _ => (0x5000, 0xFFFE)
  | .dStep => (0x5100, 0xFFFF)
  | .dStat => (0x5200, 0xFFFF)
  | .dDrop => (0x5300, 0xFFFF)

/-- The command read from a word given as the opcode table numbers its bits: one 16-bit word, bit 0
the least significant (R61). A word of another width is no command of this block (log entry 14). -/
def decodeTableWord (nbits w : Nat) : Option Instr :=
  if nbits = 16 ∧ w < 65536 then
    match decode (BitVec.ofNat 16 w) with
    | .ok i => some i
    | .error _ => none
  else none

end Sys2Proof
end

