-- ==== Sys2Proof/Machine/FieldOps.lean ====
section
/-! DEFINITION. The functions on FieldBits and Word32 (spec/41_field_bit_ops.md R100 to R108), each
element by element (spec/00_scope.md R7), and the two views `val` and `word` of a Word32 as a number
(spec/00_scope.md section 6). -/

namespace Sys2Proof.Machine

/-- `β(b)` for `b ∈ {0,1}`: the FieldBit of a binary digit. -/
def beta (b : Nat) : FieldBit := if b = 0 then .zero else .one

/-- `bit(e)`, the inverse of `β`. -/
def bitVal : FieldBit → Nat
  | .zero => 0
  | .one => 1

/-- AND, by truth table (R100). -/
def fbAnd : FieldBit → FieldBit → FieldBit
  | .zero, .zero => .zero
  | .zero, .one => .zero
  | .one, .zero => .zero
  | .one, .one => .one

/-- OR, by truth table (R101). -/
def fbOr : FieldBit → FieldBit → FieldBit
  | .zero, .zero => .zero
  | .zero, .one => .one
  | .one, .zero => .one
  | .one, .one => .one

/-- XOR, by truth table (R102). -/
def fbXor : FieldBit → FieldBit → FieldBit
  | .zero, .zero => .zero
  | .zero, .one => .one
  | .one, .zero => .one
  | .one, .one => .zero

/-- NOT (R103). -/
def fbNot : FieldBit → FieldBit
  | .zero => .one
  | .one => .zero

/-- The full adder's sum (R106). -/
def fbSum (a b c : FieldBit) : FieldBit := fbXor (fbXor a b) c

/-- The full adder's carry (R106): `1_F` when at least two inputs are `1_F`. -/
def fbCarry (a b c : FieldBit) : FieldBit :=
  fbXor (fbXor (fbAnd a b) (fbAnd a c)) (fbAnd b c)

/-- AND of two words, lane by lane (R109, R117). -/
def wAnd (x y : Word32) : Word32 := Vector.ofFn fun i : Fin 32 => fbAnd x[i] y[i]

/-- OR of two words, lane by lane (R110). -/
def wOr (x y : Word32) : Word32 := Vector.ofFn fun i : Fin 32 => fbOr x[i] y[i]

/-- XOR of two words, lane by lane (R111). -/
def wXor (x y : Word32) : Word32 := Vector.ofFn fun i : Fin 32 => fbXor x[i] y[i]

/-- NOT of a word, lane by lane (R112). -/
def wNot (x : Word32) : Word32 := Vector.ofFn fun i : Fin 32 => fbNot x[i]

/-- `rotr(x,n)[i] = x[(i − r) mod 32]` with `r = n mod 32` (R104). -/
def rotr (x : Word32) (n : Nat) : Word32 :=
  Vector.ofFn fun i : Fin 32 => x[(i.val + (32 - n % 32)) % 32]'(Nat.mod_lt _ (by decide))

/-- `shr(x,n)[i] = 0_F` for `i < n`, else `x[i − n]` (R105). -/
def shr (x : Word32) (n : Nat) : Word32 :=
  Vector.ofFn fun i : Fin 32 =>
    if i.val < n then FieldBit.zero else x[i.val - n]'(Nat.lt_of_le_of_lt (Nat.sub_le _ _) i.isLt)

/-- The ripple of R107 over element sequences, index 0 first: the sum's elements, and the carry out
of the first index. The carry enters at the last index as `0_F`. -/
def ripple : List FieldBit → List FieldBit → List FieldBit × FieldBit
  | a :: as, b :: bs =>
    let r := ripple as bs
    (fbSum a b r.2 :: r.1, fbCarry a b r.2)
  | _, _ => ([], FieldBit.zero)

theorem ripple_length : ∀ as bs : List FieldBit, as.length = bs.length →
    (ripple as bs).1.length = as.length
  | [], [], _ => rfl
  | a :: as, b :: bs, h => by
    simp only [ripple, List.length_cons]
    rw [ripple_length as bs (by simpa using h)]

/-- Addition modulo 2^32 by ripple carry; the carry out of index 0 is discarded (R107). -/
def add2 (x y : Word32) : Word32 :=
  ⟨⟨(ripple x.toList y.toList).1⟩, by
    rw [List.size_toArray, ripple_length _ _ (by simp)]; simp⟩

/-- `add32(x_1, ..., x_k)`, the left fold of `add2`, for `k ≥ 1` operands (R108): the first operand
and the list of the others. -/
def add32 (x : Word32) (rest : List Word32) : Word32 := rest.foldl add2 x

/-- `word(v)[i] = β((v div 2^(31−i)) mod 2)`. -/
def word (v : Nat) : Word32 := Vector.ofFn fun i : Fin 32 => beta (v / 2 ^ (31 - i.val) % 2)

/-- `val` of an element sequence, first element most significant. -/
def seqVal : List FieldBit → Nat
  | [] => 0
  | e :: es => bitVal e * 2 ^ es.length + seqVal es

/-- `val(x) = Σ bit(x[i])·2^(31−i)` (R41). -/
def val (x : Word32) : Nat := seqVal x.toList

end Sys2Proof.Machine
end

