-- ==== Sys2Proof/Config.lean ====
section
/-! DEFINITION. What an implementation fixes, and the values the spec leaves unspecified.
The fixed parameters of spec/00_scope.md section 4 (32, 8, 512, 16, 64, 64, 5) stand as literals in
the types and definitions that use them. -/

namespace Sys2Proof

/-- The largest `MAX_MSG_BITS` the spec admits: "a multiple of 512, at most 2^64 + 512"
(spec/00_scope.md section 4, D13). The parameter itself is `Machine.State.maxMsgBits`
(log entry 2). -/
def Config.maxMsgBitsLimit : Nat := 2 ^ 64 + 512

/-- FREE VALUE: what `HS[0..7]` hold once they are unspecified (R21, R168; log entry 5). It has no
body: nothing can be proved of a value of it. -/
opaque Config.freeHs : Nat → Vector Word32 8

/-- FREE VALUE: what `WR[0..7]` hold between commands (R23; log entry 5). -/
opaque Config.freeWr : Nat → Vector Word32 8

/-- FREE VALUE: what `W[0..63]` hold between commands (R24; log entry 5). -/
opaque Config.freeW : Nat → Vector Word32 64

/-- FREE VALUE: what the round counter `t` holds between commands (R22; log entry 5). -/
opaque Config.freeT : Nat → Fin 64

end Sys2Proof
end

