-- ==== Sys2Proof/Machine/State.lean ====
section
/-! DEFINITION. The machine's state as plain data: the dynamic context, the error log, the
datapath registers, the command and response ports (spec/10_state.md, spec/30_encoding.md R60),
and the state after reset (R28). -/

namespace Sys2Proof.Machine

/-- One typed payload item (R63), as the host presents it: a `word` item of any length and a `byte`
or `nat` item of any size can be presented, and R69's checks refuse the ones that are none
(log entry 8). -/
inductive Item where
  /-- one FieldBit -/
  | bit (e : FieldBit)
  /-- a word: 32 FieldBits, index 0 first; another length is malformed -/
  | word (es : List FieldBit)
  /-- a raw byte, 0..255 -/
  | byte (v : Nat)
  /-- a character code -/
  | char (c : Nat)
  /-- a natural number below 2^64 -/
  | nat (n : Nat)
  /-- the STATUS word -/
  | status32 (v : BitVec 32)
  deriving DecidableEq, Repr

/-- A command: a 16-bit command word and a typed payload (R60). -/
structure Command where
  word : BitVec 16
  payload : List Item
  deriving DecidableEq, Repr

/-- The four error kinds (R180). -/
inductive ErrorKind where
  /-- malformed hex text, or a bit count that is not whole bytes (R181) -/
  | formatError
  /-- a padded-message length not block-aligned (R182) -/
  | invariantViolation
  /-- digest index out of range, or a DSTEP past the terminal state or with no context (R184) -/
  | configurationError
  /-- a command that is not well-formed at all (R185) -/
  | illegalCommand
  deriving DecidableEq, Repr

/-- The status of a response (R65). -/
inductive Status where
  | ok
  | error (k : ErrorKind)
  deriving DecidableEq, Repr

/-- A response: a status and a typed payload (R60). -/
structure Response where
  status : Status
  payload : List Item
  deriving DecidableEq, Repr

/-- The state of the context's state machine, PHASE (R19). -/
inductive Phase where
  /-- 0: no context -/
  | empty
  /-- 1: DINIT succeeded, no DSTEP since -/
  | initialized
  /-- 2: at least one DSTEP succeeded since DINIT -/
  | advanced
  deriving DecidableEq, Repr

/-- The message buffer MSG, addressed by FieldBit (R18, R40): its addresses are `0 .. len - 1`, so
equal buffers are equal lists (log entry 12). -/
abbrev Memory := List FieldBit

/-- The form MSG always has: whole 512-bit blocks (R18, R47). -/
def Memory.wf (m : Memory) : Bool := m.length % 512 == 0

/-- The registers of the datapath, which hold no value between commands (R22, R23, R24). -/
structure Datapath where
  /-- the working registers `WR[0..7]` = a, b, c, d, e, f, g, h -/
  wr : Vector Word32 8
  /-- the message schedule `W[0..63]` -/
  w : Vector Word32 64
  /-- the round counter -/
  t : Fin 64
  deriving DecidableEq, Repr

/-- Everything the machine holds. -/
structure State where
  /-- the running registers `HS[0..7]` (R15) -/
  hs : Vector Word32 8
  /-- the digest index `IDX`, in blocks (R16, R171) -/
  idx : Nat
  /-- `NBLK`, the blocks of the loaded message (R17) -/
  nblk : Nat
  /-- the message buffer `MSG` (R18) -/
  msg : Memory
  /-- `PHASE` (R19) -/
  phase : Phase
  /-- `ERRLOG`: bit 0 FormatError, 1 InvariantViolation, 2 ConfigurationError, 3 IllegalCommand (R20) -/
  errlog : BitVec 4
  /-- `WR`, `W` and `t` (R22, R23, R24) -/
  dp : Datapath
  /-- command port: the commands the host has still to present, oldest first (R52; log entry 6) -/
  pending : List Command
  /-- command port: the payload of the command being performed; empty between commands (log entry 7) -/
  payload : List Item
  /-- response port: the response to the latest command (R60; log entry 7) -/
  response : Option Response
  /-- the capacity parameter `MAX_MSG_BITS` (R83): constant, no step changes it (log entry 2) -/
  maxMsgBits : Nat
  /-- the model's own: how many free values have been drawn (log entry 5) -/
  free : Nat
  deriving DecidableEq, Repr

/-- Why a step can stop with a fault. -/
inductive Fault where
  /-- Raised by DSTEP's MemRead when the block at `512·IDX` does not lie inside MSG. R50: no legal
  command can form such an index, and no state that meets `StateInv` raises it. Safe (log entry 11). -/
  | messageAddress
  deriving DecidableEq, Repr

/-- Why a step can refuse. -/
inductive Refusal where
  /-- An instruction with no meaning yet, by its mnemonic. Raised by nothing: every arm of `exec` has
  its meaning. Safe. -/
  | notModelled (mnemonic : String)
  deriving DecidableEq, Repr

/-- The state right after reset (R28, R200). `HS` and the datapath, which the spec leaves
unspecified, hold zero words (log entries 3 and 4); `MAX_MSG_BITS` is the largest the spec admits
(log entry 2); nothing is presented and nothing has been answered (log entries 6 and 7). -/
def State.reset : State where
  hs := Vector.replicate 8 Word32.zero
  idx := 0
  nblk := 0
  msg := []
  phase := .empty
  errlog := 0
  dp := { wr := Vector.replicate 8 Word32.zero, w := Vector.replicate 64 Word32.zero, t := 0 }
  pending := []
  payload := []
  response := none
  maxMsgBits := Config.maxMsgBitsLimit
  free := 0

end Sys2Proof.Machine
end

