-- ==== Sys2Proof/Machine/Ops.lean ====
section
/-! DEFINITION. The named operations every command uses: the command and response ports, raising an
error (spec/60_exceptions.md R183), the message buffer (spec/20_memory.md R44), and the datapath
registers' loss of their values between commands (spec/10_state.md R23, R24). -/

namespace Sys2Proof.Machine

/-- The outcome of a command. -/
abbrev Result := Host.Outcome State Fault Refusal

/-- The `ERRLOG` bit of an error kind (R20, R180). -/
def ErrorKind.logBit : ErrorKind → BitVec 4
  | .formatError => 1
  | .invariantViolation => 2
  | .configurationError => 4
  | .illegalCommand => 8

/-- Return the response to the command being performed; its payload leaves the port (R60, R27). -/
def State.respond (s : State) (st : Status) (out : List Item) : State :=
  { s with payload := [], response := some { status := st, payload := out } }

/-- An error ends the command (R183): a response with the error's status and no payload, and the one
sticky `ERRLOG` bit; nothing else is written. -/
def State.raise (s : State) (k : ErrorKind) : State :=
  { s with errlog := s.errlog ||| k.logBit }.respond (.error k) []

/-- The command completes with status OK and the payload `out`. -/
def complete (s : State) (out : List Item) : Result := .next (s.respond .ok out)

/-- The command ends with an error. -/
def fail (s : State) (k : ErrorKind) : Result := .next (s.raise k)

/-- `WR`, `W` and `t` hold no value once a command that used them is over (R23, R24): each takes a
free value (log entry 5). -/
def State.releaseDatapath (s : State) : State :=
  { s with
    dp := { wr := Config.freeWr s.free, w := Config.freeW s.free, t := Config.freeT s.free }
    free := s.free + 1 }

/-- `HS` becomes unspecified (R168): it takes a free value (log entry 5). -/
def State.releaseHs (s : State) : State :=
  { s with hs := Config.freeHs s.free, free := s.free + 1 }

/-- Block `j` of a padded message: word `k` element `i` is the message's element
`512·j + 32·k + i` (R44). Its callers read only blocks that lie inside the message. -/
def blockAt (m : List FieldBit) (j : Nat) : Vector Word32 16 :=
  Vector.ofFn fun k : Fin 16 => Vector.ofFn fun i : Fin 32 =>
    m.getD (512 * j + 32 * k.val + i.val) FieldBit.zero

/-- `MemRead(512·j, 512)`, cut into words (R44); none where the block does not lie inside MSG (R50,
log entry 11). -/
def Memory.readBlock (m : Memory) (j : Nat) : Option (Vector Word32 16) :=
  if 512 * j + 512 ≤ m.length then some (blockAt m j) else none

/-- `MemWrite(0, M, p)`: the whole buffer is written at once (R18). -/
def Memory.load (_old : Memory) (p : List FieldBit) : Memory := p

/-- The command the host presents next, and the state in which its payload stands on the port. -/
def nextCommand (s : State) : Option (Command × State) :=
  match s.pending with
  | [] => none
  | c :: rest => some (c, { s with pending := rest, payload := c.payload })

/-- No command is presented: nothing happens (R26 "between commands nothing is in flight"; log
entry 6). -/
def idle (s : State) : Result := .next s

/-- A command word that R68 (a), (b) or (c) makes illegal. -/
def illegalWord (s : State) : Result := fail s .illegalCommand

end Sys2Proof.Machine
end

