-- ==== Sys2Proof/Machine/Operands.lean ====
section
/-! DEFINITION. Operand forms: every payload shape of the opcode table (spec/30_encoding.md R63, R66,
R69), the capacity rules (R69, spec/40_framing.md R83), and payload items as results. A function
here answers none where R69 makes the command illegal. -/

namespace Sys2Proof.Machine

/-- An item of type `bit`. -/
def Item.asBit : Item → Option FieldBit
  | .bit e => some e
  | _ => none

/-- An item of type `word`: exactly 32 FieldBits (R69). -/
def Item.asWord : Item → Option Word32
  | .word es => if h : es.length = 32 then some ⟨⟨es⟩, h⟩ else none
  | _ => none

/-- An item of type `byte`: a natural number 0..255 (R63). -/
def Item.asByte : Item → Option (Fin 256)
  | .byte v => if h : v < 256 then some ⟨v, h⟩ else none
  | _ => none

/-- An item of type `char`: any character code (R63). -/
def Item.asChar : Item → Option Nat
  | .char c => some c
  | _ => none

/-- The whole payload as a list of items of one type. -/
def collect {α : Type} (f : Item → Option α) : List Item → Option (List α)
  | [] => some []
  | i :: is =>
    match f i with
    | none => none
    | some a =>
      match collect f is with
      | none => none
      | some as => some (a :: as)

/-- Payload `bit[n]`, any `n`. -/
def bitsOf (p : List Item) : Option (List FieldBit) := collect Item.asBit p

/-- Payload `byte[n]`, any `n`. -/
def bytesOf (p : List Item) : Option (List (Fin 256)) := collect Item.asByte p

/-- Payload `char[n]`, any `n`. -/
def charsOf (p : List Item) : Option (List Nat) := collect Item.asChar p

/-- Payload `word[k]`: exactly `k` words (R69). -/
def wordsOf (k : Nat) (p : List Item) : Option (Vector Word32 k) :=
  match collect Item.asWord p with
  | none => none
  | some ws => if h : ws.length = k then some ⟨⟨ws⟩, h⟩ else none

/-- Payload `none`. -/
def noneOf : List Item → Bool
  | [] => true
  | _ :: _ => false

/-- DINIT's operands: the padded message, SRX's `digestIndex`, and the prior state when `P = 1`
(R161). -/
structure InitOperands where
  message : List FieldBit
  index : Nat
  prior : Option (Vector Word32 8)
  deriving DecidableEq, Repr

/-- What follows DINIT's message bits: one natural below 2^64, then `word[8]` if and only if `P = 1`
(R66, R69). -/
def initTail (p : Bool) (message : List FieldBit) : List Item → Option InitOperands
  | .nat n :: rest =>
    if n < 2 ^ 64 then
      match p with
      | true =>
        match wordsOf 8 rest with
        | some ws => some { message := message, index := n, prior := some ws }
        | none => none
      | false => if noneOf rest then some { message := message, index := n, prior := none } else none
    else none
  | _ => none

/-- DINIT's payload: `bit[M]`, then `initTail`. The bits run up to the first item of another type. -/
def initOf (p : Bool) : List FieldBit → List Item → Option InitOperands
  | acc, .bit e :: rest => initOf p (e :: acc) rest
  | acc, rest => initTail p acc.reverse rest

/-- The number of zero bits PAD adds to `L` bits: the least `z` with `(L + 1 + z) mod 512 = 448`
(R81). `(447 − L) mod 512`, written without a negative number. -/
def padZeros (L : Nat) : Nat := (447 + (512 - L % 512)) % 512

/-- The length of the padded form of `L` bits, `L + 1 + z + 64` (R81). -/
def paddedLength (L : Nat) : Nat := L + 1 + padZeros L + 64

/-- R83: a message of `L` bits is taken when `L < 2^64` and its padded length is within the capacity
(TOBITS, PAD, HASH, HASHX). -/
def messageFits (cap L : Nat) : Bool := L < 2 ^ 64 && paddedLength L ≤ cap

/-- R69, R180: a payload of `n` bits after expansion is taken when `n` is below 2^64 and within the
capacity (HEX2BITS, BITS2HEX, and DINIT's padded message; log entry 10). -/
def payloadFits (cap n : Nat) : Bool := n < 2 ^ 64 && n ≤ cap

/-- A Word32 as a payload item. -/
def Item.ofWord (x : Word32) : Item := .word x.toList

/-- `word[k]` as a payload. -/
def ofWords {k : Nat} (ws : Vector Word32 k) : List Item := ws.toList.map Item.ofWord

/-- `bit[n]` as a payload. -/
def ofBits (es : List FieldBit) : List Item := es.map Item.bit

/-- `byte[n]` as a payload. -/
def ofBytes (m : List (Fin 256)) : List Item := m.map fun b => Item.byte b.val

/-- `char[n]` as a payload. -/
def ofChars (cs : List Nat) : List Item := cs.map Item.char

/-- DINIT's payload for given operands (R161). -/
def ofInit (o : InitOperands) : List Item :=
  ofBits o.message ++ Item.nat o.index ::
    match o.prior with
    | some ws => ofWords ws
    | none => []

/-- Perform a command whose payload is `word[k]`, or refuse it as illegal (R68 d). -/
def onWords (k : Nat) (s : State) (f : Vector Word32 k → Result) : Result :=
  match wordsOf k s.payload with
  | none => fail s .illegalCommand
  | some v => f v

/-- Perform a command that takes no payload, or refuse it as illegal (R68 d). -/
def onNone (s : State) (r : Result) : Result :=
  if noneOf s.payload then r else fail s .illegalCommand

/-- Operand items of zeros in the shape of a command's row of R66, for a command word that is
presented with no payload of its own (log entry 15): a list of any length is empty, every other item
is zero. -/
def zeroPayload : Instr → List Item
  | .toBits | .hexToBits | .bitsToHex | .pad | .hash | .hashX => []
  | .fAnd | .fOr | .fXor => List.replicate 2 (Item.ofWord Word32.zero)
  | .fNot | .fRotr _ | .fShr _ => [Item.ofWord Word32.zero]
  | .fAdd k => List.replicate k.val (Item.ofWord Word32.zero)
  | .rdH _ | .rdK _ => []
  | .sSig0 | .sSig1 | .bSig0 | .bSig1 => [Item.ofWord Word32.zero]
  | .ch | .maj => List.replicate 3 (Item.ofWord Word32.zero)
  | .sched => List.replicate 16 (Item.ofWord Word32.zero)
  | .round _ => List.replicate 9 (Item.ofWord Word32.zero)
  | .compress => List.replicate 24 (Item.ofWord Word32.zero)
  | .dInit p => Item.nat 0 :: (if p then List.replicate 8 (Item.ofWord Word32.zero) else [])
  | .dStep | .dStat | .dDrop => []

end Sys2Proof.Machine
end

