-- ==== Sys2Proof/Machine/Rom.lean ====
section
/-! DEFINITION. The constant ROM (spec/42_constant_rom.md R120 to R122, R125): valid from reset and
written by nothing, so it is a constant of the model and not a field of State (log entry 13). -/

namespace Sys2Proof.Machine

/-- `ROMH[0..7]` (R121). -/
def romHHex : Vector Nat 8 :=
  #v[0x6a09e667, 0xbb67ae85, 0x3c6ef372, 0xa54ff53a, 0x510e527f, 0x9b05688c, 0x1f83d9ab, 0x5be0cd19]

/-- The table of R122 as the spec prints it: sixteen rows of four words. A row is one number of 128
bits, its column 0 in the top 32. -/
def romKRows : Vector Nat 16 :=
  #v[0x428a2f98_71374491_b5c0fbcf_e9b5dba5,
     0x3956c25b_59f111f1_923f82a4_ab1c5ed5,
     0xd807aa98_12835b01_243185be_550c7dc3,
     0x72be5d74_80deb1fe_9bdc06a7_c19bf174,
     0xe49b69c1_efbe4786_0fc19dc6_240ca1cc,
     0x2de92c6f_4a7484aa_5cb0a9dc_76f988da,
     0x983e5152_a831c66d_b00327c8_bf597fc7,
     0xc6e00bf3_d5a79147_06ca6351_14292967,
     0x27b70a85_2e1b2138_4d2c6dfc_53380d13,
     0x650a7354_766a0abb_81c2c92e_92722c85,
     0xa2bfe8a1_a81a664b_c24b8b70_c76c51a3,
     0xd192e819_d6990624_f40e3585_106aa070,
     0x19a4c116_1e376c08_2748774c_34b0bcb5,
     0x391c0cb3_4ed8aa4a_5b9cca4f_682e6ff3,
     0x748f82ee_78a5636f_84c87814_8cc70208,
     0x90befffa_a4506ceb_bef9a3f7_c67178f2]

/-- `ROMK[0..63]`: `ROMK[4r + c]` stands in row `r`, column `c` (R122). -/
def romKHex : Vector Nat 64 :=
  Vector.ofFn fun t : Fin 64 =>
    romKRows[t.val / 4]'(Nat.div_lt_of_lt_mul t.isLt) / 2 ^ (32 * (3 - t.val % 4)) % 2 ^ 32

/-- A read of `ROMH` (R13, R123). -/
def romH (i : Fin 8) : Word32 := word romHHex[i]

/-- A read of `ROMK` (R14, R124). -/
def romK (t : Fin 64) : Word32 := word romKHex[t]

/-- All of `ROMH`, as a compression state. -/
def romHAll : Vector Word32 8 := Vector.ofFn romH

end Sys2Proof.Machine
end

