-- ==== Sys2Proof/Machine/Compression.lean ====
section
/-! DEFINITION. Compression (spec/43_compression.md R130 to R139): the six word functions, the
message schedule, one round, one block, and their commands. -/

namespace Sys2Proof.Machine

/-- σ0 (R130). -/
def sSigma0 (x : Word32) : Word32 := wXor (wXor (rotr x 7) (rotr x 18)) (shr x 3)

/-- σ1 (R131). -/
def sSigma1 (x : Word32) : Word32 := wXor (wXor (rotr x 17) (rotr x 19)) (shr x 10)

/-- S0 (R132). -/
def bSigma0 (x : Word32) : Word32 := wXor (wXor (rotr x 2) (rotr x 13)) (rotr x 22)

/-- S1 (R133). -/
def bSigma1 (x : Word32) : Word32 := wXor (wXor (rotr x 6) (rotr x 11)) (rotr x 25)

/-- ch: `(e ∧ f) ⊕ ((¬e) ∧ g)` (R134). -/
def chWord (e f g : Word32) : Word32 := wXor (wAnd e f) (wAnd (wNot e) g)

/-- maj: `((a ∧ b) ⊕ (a ∧ c)) ⊕ (b ∧ c)` (R135). -/
def majWord (a b c : Word32) : Word32 := wXor (wXor (wAnd a b) (wAnd a c)) (wAnd b c)

/-- `W[0..15]` from the block; the later entries as they were (R136, first line). -/
def loadBlock (w : Vector Word32 64) (m : Vector Word32 16) : Vector Word32 64 :=
  Vector.ofFn fun t : Fin 64 => if h : t.val < 16 then m[t.val] else w[t]

/-- The schedule's recurrence at `t ≥ 16`:
`add32(σ1(W[t−2]), W[t−7], σ0(W[t−15]), W[t−16])` (R136). -/
def schedTerm (w : Vector Word32 64) (t : Fin 64) : Word32 :=
  add32 (sSigma1 (w[t.val - 2]'(Nat.lt_of_le_of_lt (Nat.sub_le _ _) t.isLt)))
    [w[t.val - 7]'(Nat.lt_of_le_of_lt (Nat.sub_le _ _) t.isLt),
     sSigma0 (w[t.val - 15]'(Nat.lt_of_le_of_lt (Nat.sub_le _ _) t.isLt)),
     w[t.val - 16]'(Nat.lt_of_le_of_lt (Nat.sub_le _ _) t.isLt)]

/-- `W[t] <- ` the recurrence's value (R136). -/
def schedStep (w : Vector Word32 64) (t : Fin 64) : Vector Word32 64 :=
  w.set t.val (schedTerm w t) t.isLt

/-- The message schedule of a block: `t` in 16..63 in increasing order (R136). -/
def schedule (m : Vector Word32 16) : Vector Word32 64 :=
  ((List.finRange 64).drop 16).foldl schedStep
    (loadBlock (Vector.replicate 64 Word32.zero) m)

/-- `temp1 = add32(h, S1, ch, K[t], Wt)` (R137). -/
def temp1 (t : Fin 64) (wr : Vector Word32 8) (wt : Word32) : Word32 :=
  add32 wr[7] [bSigma1 wr[4], chWord wr[4] wr[5] wr[6], romK t, wt]

/-- `temp2 = add32(S0, maj)` (R137). -/
def temp2 (wr : Vector Word32 8) : Word32 :=
  add32 (bSigma0 wr[0]) [majWord wr[0] wr[1] wr[2]]

/-- One round: all right-hand sides read the values from before the round (R137). -/
def roundStep (t : Fin 64) (wr : Vector Word32 8) (wt : Word32) : Vector Word32 8 :=
  #v[add32 (temp1 t wr wt) [temp2 wr], wr[0], wr[1], wr[2],
     add32 wr[3] [temp1 t wr wt], wr[4], wr[5], wr[6]]

/-- Step 4 of R138: `S'[i] = add32(S[i], WR[i])`. -/
def finalAdd (st wr : Vector Word32 8) : Vector Word32 8 :=
  Vector.ofFn fun i : Fin 8 => add32 st[i] [wr[i]]

/-- The compression function (R138), as a fold over the rounds. -/
def compress (st : Vector Word32 8) (m : Vector Word32 16) : Vector Word32 8 :=
  finalAdd st ((List.finRange 64).foldl (fun wr t => roundStep t wr (schedule m)[t]) st)

/-- SSIG0 (R130). -/
def execSSig0 (s : State) : Result := onWords 1 s fun v => complete s [Item.ofWord (sSigma0 v[0])]

/-- SSIG1 (R131). -/
def execSSig1 (s : State) : Result := onWords 1 s fun v => complete s [Item.ofWord (sSigma1 v[0])]

/-- BSIG0 (R132). -/
def execBSig0 (s : State) : Result := onWords 1 s fun v => complete s [Item.ofWord (bSigma0 v[0])]

/-- BSIG1 (R133). -/
def execBSig1 (s : State) : Result := onWords 1 s fun v => complete s [Item.ofWord (bSigma1 v[0])]

/-- CH (R134): `e`, `f`, `g` in that order. -/
def execCh (s : State) : Result :=
  onWords 3 s fun v => complete s [Item.ofWord (chWord v[0] v[1] v[2])]

/-- MAJ (R135): `a`, `b`, `c` in that order. -/
def execMaj (s : State) : Result :=
  onWords 3 s fun v => complete s [Item.ofWord (majWord v[0] v[1] v[2])]

/-- SCHED (R136): the 64 words are returned; `W` holds no value afterwards (R24). -/
def execSched (s : State) : Result :=
  onWords 16 s fun v => complete s.releaseDatapath (ofWords (schedule v))

/-- The first `n` words of a list of operands. -/
def takeWords (n : Nat) {k : Nat} (v : Vector Word32 k) (h : n ≤ k) : Vector Word32 n :=
  Vector.ofFn fun i : Fin n => v[i.val]'(Nat.lt_of_lt_of_le i.isLt h)

/-- ROUND (R137): `a..h`, then `Wt`. -/
def execRound (t : Fin 64) (s : State) : Result :=
  onWords 9 s fun v =>
    complete s.releaseDatapath (ofWords (roundStep t (takeWords 8 v (by decide)) v[8]))

/-- COMPRESS (R139): the state's 8 words, then the block's 16; HS is neither read nor written. -/
def execCompress (s : State) : Result :=
  onWords 24 s fun v =>
    complete s.releaseDatapath
      (ofWords (compress (takeWords 8 v (by decide))
        (Vector.ofFn fun k : Fin 16 => v[8 + k.val]'(Nat.add_lt_add_left k.isLt 8))))

end Sys2Proof.Machine
end

