-- ==== Sys2Proof/Machine/Flags.lean ====
section
/-! DEFINITION. The block has no condition flags (spec/10_state.md R25). What it has instead is the
derived flag TERMINAL (R19), the STATUS word (R29) and the status codes (spec/30_encoding.md R65). -/

namespace Sys2Proof.Machine

/-- The number of a phase in STATUS `bits[1:0]` (R19). -/
def Phase.code : Phase → BitVec 2
  | .empty => 0
  | .initialized => 1
  | .advanced => 2

/-- TERMINAL: `PHASE ≠ Empty` and `IDX = NBLK` (R19). -/
def terminal (s : State) : Bool :=
  match s.phase with
  | .empty => false
  | .initialized | .advanced => s.idx == s.nblk

/-- The STATUS word: `bits[31:12]` zero, `bits[11:8]` ERRLOG, `bits[7:3]` zero, `bits[2]` TERMINAL,
`bits[1:0]` PHASE (R29). -/
def statusWord (s : State) : BitVec 32 :=
  0#20 ++ s.errlog ++ 0#5 ++ BitVec.ofBool (terminal s) ++ s.phase.code

/-- The number of a status in a response (R65). -/
def Status.code : Status → Nat
  | .ok => 0
  | .error .formatError => 1
  | .error .invariantViolation => 2
  | .error .configurationError => 3
  | .error .illegalCommand => 4

end Sys2Proof.Machine
end

