-- ==== Sys2Proof/Machine/Dynamic.lean ====
section
/-! DEFINITION. The dynamic engine (spec/45_dynamic_engine.md R161 to R168). -/

namespace Sys2Proof.Machine

/-- The error DINIT's checks find, in their order (R161, R162, R187): length, no prior state with an
index, index range. -/
def initError (o : InitOperands) : Option ErrorKind :=
  if o.message.length % 512 ≠ 0 then some .invariantViolation
  else if o.prior = none ∧ o.index ≠ 0 then some .configurationError
  else if o.index ≥ o.message.length / 512 then some .configurationError
  else none

/-- The context a successful DINIT constructs (R161). -/
def initContext (o : InitOperands) (s : State) : State :=
  { s with
    msg := Memory.load s.msg o.message
    nblk := o.message.length / 512
    idx := o.index
    hs := match o.prior with
      | some prior => prior
      | none => romHAll
    phase := .initialized }

/-- DINIT (R161). The limits of R69 and R180 come before its own checks (R187). -/
def execDInit (p : Bool) (s : State) : Result :=
  match initOf p [] s.payload with
  | none => fail s .illegalCommand
  | some o =>
    if payloadFits s.maxMsgBits o.message.length then
      match initError o with
      | some k => fail s k
      | none => complete (initContext o s) []
    else fail s .illegalCommand

/-- The context after a DSTEP that consumed block `m` (R163). -/
def advance (m : Vector Word32 16) (s : State) : State :=
  { s with hs := compress s.hs m, idx := s.idx + 1, phase := .advanced }

/-- DSTEP with a context: refuse at the terminal state, else consume the block at `IDX` (R163,
R165). -/
def consumeBlock (s : State) : Result :=
  if s.idx ≥ s.nblk then fail s .configurationError
  else
    match Memory.readBlock s.msg s.idx with
    | none => .fault .messageAddress
    | some m =>
      complete (advance m s).releaseDatapath (ofWords (compress s.hs m))

/-- DSTEP (R163): no context is a ConfigurationError (R164). -/
def execDStep (s : State) : Result :=
  onNone s <|
    match s.phase with
    | .empty => fail s .configurationError
    | .initialized | .advanced => consumeBlock s

/-- What DSTAT reads of a counter: 0 in phase Empty (R21, R167). -/
def readCounter (s : State) (n : Nat) : Nat :=
  match s.phase with
  | .empty => 0
  | .initialized | .advanced => n

/-- DSTAT (R167): STATUS, IDX, NBLK; no state is written. -/
def execDStat (s : State) : Result :=
  onNone s <|
    complete s [Item.status32 (statusWord s), Item.nat (readCounter s s.idx),
      Item.nat (readCounter s s.nblk)]

/-- The state with the context discarded (R168); in phase Empty nothing changes. -/
def dropContext (s : State) : State :=
  match s.phase with
  | .empty => s
  | .initialized | .advanced => { s with phase := .empty, idx := 0, nblk := 0, msg := [] }.releaseHs

/-- DDROP (R168). -/
def execDDrop (s : State) : Result := onNone s (complete (dropContext s) [])

end Sys2Proof.Machine
end

