-- ==== Sys2Proof/Machine/FieldCommands.lean ====
section
/-! DEFINITION. The commands of the bit-level field operations (spec/41_field_bit_ops.md R109 to
R115). -/

namespace Sys2Proof.Machine

/-- FAND (R109). -/
def execFAnd (s : State) : Result :=
  onWords 2 s fun v => complete s [Item.ofWord (wAnd v[0] v[1])]

/-- FOR (R110). -/
def execFOr (s : State) : Result :=
  onWords 2 s fun v => complete s [Item.ofWord (wOr v[0] v[1])]

/-- FXOR (R111). -/
def execFXor (s : State) : Result :=
  onWords 2 s fun v => complete s [Item.ofWord (wXor v[0] v[1])]

/-- FNOT (R112). -/
def execFNot (s : State) : Result :=
  onWords 1 s fun v => complete s [Item.ofWord (wNot v[0])]

/-- FROTR (R113): every `n` is legal. -/
def execFRotr (n : Fin 256) (s : State) : Result :=
  onWords 1 s fun v => complete s [Item.ofWord (rotr v[0] n.val)]

/-- FSHR (R114): every `n` is legal. -/
def execFShr (n : Fin 256) (s : State) : Result :=
  onWords 1 s fun v => complete s [Item.ofWord (shr v[0] n.val)]

/-- The sum of the operands of FADD, first operand first (R108). -/
def addAll : List Word32 → Word32
  | [] => Word32.zero
  | x :: rest => add32 x rest

/-- FADD (R115): `k` words, `1 ≤ k ≤ 5`; any other `k` is illegal, so `addAll` never sees the empty
list here. -/
def execFAdd (k : Fin 8) (s : State) : Result :=
  if faddCountOk k then onWords k.val s fun v => complete s [Item.ofWord (addAll v.toList)]
  else fail s .illegalCommand

end Sys2Proof.Machine
end

