-- ==== Sys2Proof/Machine/Framing.lean ====
section
/-! DEFINITION. Framing helpers (spec/40_framing.md): TOBITS, HEX2BITS, BITS2HEX, PAD. -/

namespace Sys2Proof.Machine

/-- The eight FieldBits of a byte, most significant first (R42). -/
def byteBits (v : Fin 256) : List FieldBit :=
  (List.range 8).map fun s => beta (v.val / 2 ^ (7 - s) % 2)

/-- SRX's `toBits`: `out[8j + s] = β(bit 7−s of m[j])` (R80). -/
def toBits (m : List (Fin 256)) : List FieldBit := m.flatMap byteBits

/-- `be64(n)`, most significant bit first (R43). -/
def be64 (n : Nat) : List FieldBit :=
  (List.range 64).map fun i => beta (n / 2 ^ (63 - i) % 2)

/-- SRX's `pad`: one `1_F`, the minimum of `0_F`, the length as 64 bits (R81). -/
def pad (m : List FieldBit) : List FieldBit :=
  m ++ [FieldBit.one] ++ List.replicate (padZeros m.length) FieldBit.zero ++ be64 m.length

/-- `hexval` (R87): `0`..`9`, `A`..`F`, `a`..`f`; none for every other code. -/
def hexval (c : Nat) : Option Nat :=
  if 0x30 ≤ c ∧ c ≤ 0x39 then some (c - 0x30)
  else if 0x41 ≤ c ∧ c ≤ 0x46 then some (c - 0x41 + 10)
  else if 0x61 ≤ c ∧ c ≤ 0x66 then some (c - 0x61 + 10)
  else none

/-- `hexdigit` (R87), lower case. -/
def hexdigit (d : Nat) : Nat := if d < 10 then 0x30 + d else 0x61 + (d - 10)

/-- The four FieldBits of a hex digit's value, most significant first (R84). -/
def nibbleBits (d : Nat) : List FieldBit :=
  [beta (d / 8 % 2), beta (d / 4 % 2), beta (d / 2 % 2), beta (d % 2)]

/-- The digits' bits in order; none where a character is not a hex digit (R84). -/
def digitsToBits : List Nat → Option (List FieldBit)
  | [] => some []
  | c :: cs =>
    match hexval c with
    | none => none
    | some d =>
      match digitsToBits cs with
      | none => none
      | some bs => some (nibbleBits d ++ bs)

/-- SRX's `hexToBits`: none is FormatError, for an odd length or a non-hex character (R84). -/
def hexToBits (s : List Nat) : Option (List FieldBit) :=
  if s.length % 2 = 1 then none else digitsToBits s

/-- The hex digits of a bit sequence, four bits to a digit (R85). -/
def bitsToDigits : List FieldBit → List Nat
  | a :: b :: c :: d :: rest =>
    hexdigit (8 * bitVal a + 4 * bitVal b + 2 * bitVal c + bitVal d) :: bitsToDigits rest
  | _ => []

/-- SRX's `bitsToHex`: none is FormatError, for a length that is not whole bytes (R85). -/
def bitsToHex (b : List FieldBit) : Option (List Nat) :=
  if b.length % 8 = 0 then some (bitsToDigits b) else none

/-- TOBITS (R80). -/
def execToBits (s : State) : Result :=
  match bytesOf s.payload with
  | none => fail s .illegalCommand
  | some m =>
    if messageFits s.maxMsgBits (8 * m.length) then complete s (ofBits (toBits m))
    else fail s .illegalCommand

/-- HEX2BITS (R84). -/
def execHexToBits (s : State) : Result :=
  match charsOf s.payload with
  | none => fail s .illegalCommand
  | some cs =>
    if payloadFits s.maxMsgBits (4 * cs.length) then
      match hexToBits cs with
      | none => fail s .formatError
      | some bs => complete s (ofBits bs)
    else fail s .illegalCommand

/-- BITS2HEX (R85). -/
def execBitsToHex (s : State) : Result :=
  match bitsOf s.payload with
  | none => fail s .illegalCommand
  | some bs =>
    if payloadFits s.maxMsgBits bs.length then
      match bitsToHex bs with
      | none => fail s .formatError
      | some cs => complete s (ofChars cs)
    else fail s .illegalCommand

/-- PAD (R81): the padded bits and the original length. -/
def execPad (s : State) : Result :=
  match bitsOf s.payload with
  | none => fail s .illegalCommand
  | some m =>
    if messageFits s.maxMsgBits m.length then complete s (ofBits (pad m) ++ [Item.nat m.length])
    else fail s .illegalCommand

end Sys2Proof.Machine
end

