-- ==== Sys2Proof/Machine/Native.lean ====
section
/-! DEFINITION. The native engine (spec/44_native_engine.md R150, R151, R153). -/

namespace Sys2Proof.Machine

/-- Fold the compression function over the first `n` blocks of a padded message, in order (R150). -/
def foldBlocks (p : List FieldBit) (n : Nat) (st : Vector Word32 8) : Vector Word32 8 :=
  (List.range n).foldl (fun acc j => compress acc (blockAt p j)) st

/-- The digest of a message given as bits: pad, split into blocks, fold from `ROMH` (R150). -/
def nativeBits (b : List FieldBit) : Vector Word32 8 :=
  foldBlocks (pad b) ((pad b).length / 512) romHAll

/-- `native(m)` for a byte sequence (R150). -/
def native (m : List (Fin 256)) : Vector Word32 8 := nativeBits (toBits m)

/-- The 256 FieldBits of a digest: its words in order, each most significant bit first (R45). -/
def digestBits (v : Vector Word32 8) : List FieldBit := (v.toList.map fun x => x.toList).flatten

/-- The 32-byte form of a digest: bits `8m .. 8m+7` form byte `m`, most significant first (R45,
R154). -/
def digestBytes (v : Vector Word32 8) : List Nat :=
  (List.range 32).map fun m => seqVal ((digestBits v).drop (8 * m) |>.take 8)

/-- HASH (R151): the dynamic context is neither read nor written. -/
def execHash (s : State) : Result :=
  match bytesOf s.payload with
  | none => fail s .illegalCommand
  | some m =>
    if messageFits s.maxMsgBits (8 * m.length) then
      complete s.releaseDatapath (ofWords (native m))
    else fail s .illegalCommand

/-- HASHX (R153): as HASH on the bytes the hex text spells. -/
def execHashX (s : State) : Result :=
  match charsOf s.payload with
  | none => fail s .illegalCommand
  | some cs =>
    if messageFits s.maxMsgBits (4 * cs.length) then
      match hexToBits cs with
      | none => fail s .formatError
      | some b => complete s.releaseDatapath (ofWords (nativeBits b))
    else fail s .illegalCommand

end Sys2Proof.Machine
end

