-- ==== Sys2Proof/Machine/RomCommands.lean ====
section
/-! DEFINITION. The constant ROM's read commands (spec/42_constant_rom.md R123, R124). -/

namespace Sys2Proof.Machine

/-- RDH (R123). -/
def execRdH (i : Fin 8) (s : State) : Result := onNone s (complete s [Item.ofWord (romH i)])

/-- RDK (R124). -/
def execRdK (t : Fin 64) (s : State) : Result := onNone s (complete s [Item.ofWord (romK t)])

end Sys2Proof.Machine
end

