-- ==== Sys2Proof/Machine/Dispatch.lean ====
section
/-! DEFINITION. One arm per command: the meaning it calls. -/

namespace Sys2Proof.Machine

def exec (i : Instr) (s : State) : Host.Outcome State Fault Refusal :=
  match i with
  | .toBits => Sys2Proof.Machine.execToBits s
  | .hexToBits => Sys2Proof.Machine.execHexToBits s
  | .bitsToHex => Sys2Proof.Machine.execBitsToHex s
  | .pad => Sys2Proof.Machine.execPad s
  | .fAnd => Sys2Proof.Machine.execFAnd s
  | .fOr => Sys2Proof.Machine.execFOr s
  | .fXor => Sys2Proof.Machine.execFXor s
  | .fNot => Sys2Proof.Machine.execFNot s
  | .fRotr n => Sys2Proof.Machine.execFRotr n s
  | .fShr n => Sys2Proof.Machine.execFShr n s
  | .fAdd k => Sys2Proof.Machine.execFAdd k s
  | .rdH j => Sys2Proof.Machine.execRdH j s
  | .rdK t => Sys2Proof.Machine.execRdK t s
  | .sSig0 => Sys2Proof.Machine.execSSig0 s
  | .sSig1 => Sys2Proof.Machine.execSSig1 s
  | .bSig0 => Sys2Proof.Machine.execBSig0 s
  | .bSig1 => Sys2Proof.Machine.execBSig1 s
  | .ch => Sys2Proof.Machine.execCh s
  | .maj => Sys2Proof.Machine.execMaj s
  | .sched => Sys2Proof.Machine.execSched s
  | .round t => Sys2Proof.Machine.execRound t s
  | .compress => Sys2Proof.Machine.execCompress s
  | .hash => Sys2Proof.Machine.execHash s
  | .hashX => Sys2Proof.Machine.execHashX s
  | .dInit p => Sys2Proof.Machine.execDInit p s
  | .dStep => Sys2Proof.Machine.execDStep s
  | .dStat => Sys2Proof.Machine.execDStat s
  | .dDrop => Sys2Proof.Machine.execDDrop s

end Sys2Proof.Machine
end

