-- ==== Sys2Proof/Machine/Step.lean ====
section
/-! DEFINITION. One step: the host's next command is decoded and performed (spec/00_scope.md R6). -/

namespace Sys2Proof.Machine

/-- One command, or nothing where none is presented. An illegal command word is answered with
IllegalCommand (R68). -/
def step (s : State) : Host.Outcome State Fault Refusal :=
  match nextCommand s with
  | none => idle s
  | some (c, s') =>
    match decode c.word with
    | .ok i => exec i s'
    | .error _ => illegalWord s'

/-- `s` with the command of word `w` presented next, its payload the zero operands of the row's
shape (log entry 15). A word of the table is one 16-bit word, so `nbits` bounds only which bits of
`w` are given. -/
def State.withFetchWord (s : State) (nbits w : Nat) : State :=
  { s with
    pending :=
      { word := BitVec.ofNat 16 (w % 2 ^ nbits)
        payload :=
          match decode (BitVec.ofNat 16 (w % 2 ^ nbits)) with
          | .ok i => zeroPayload i
          | .error _ => [] } :: s.pending }

end Sys2Proof.Machine
end

