-- ==== Sys2Proof/Machine/FieldForms.lean ====
section
/-! DEFINITION. The block over an arbitrary field `F` (spec/00_scope.md R5, R8; spec/10_state.md R10,
R12): how a FieldBit sits inside `F`, the polynomial field forms of spec/41_field_bit_ops.md
(informative there, R100 to R103, R106), and the word functions and the compression written with
field operations only. The machine is defined by the truth tables; that the field forms agree with
it in every field is a statement for the provers. -/

namespace Sys2Proof.Machine

/-- A FieldBit as an element of `F`: `0_F` or `1_F` (R10). -/
def embed (F : Type) [Field F] : FieldBit → F
  | .zero => 0
  | .one => 1

/-- The elements of `F` a FieldBit can be: R12's subtype. -/
abbrev FieldBitOf (F : Type) [Field F] := { e : F // e = 0 ∨ e = 1 }

/-- A FieldBit as an element of R12's subtype. -/
def toSubtype (F : Type) [Field F] : FieldBit → FieldBitOf F
  | .zero => ⟨0, Or.inl rfl⟩
  | .one => ⟨1, Or.inr rfl⟩

/-- Thirty-two elements of `F`, index 0 the most significant. -/
abbrev FWord (F : Type) := Vector F 32

/-- A Word32 as elements of `F`. -/
def embedWord (F : Type) [Field F] (x : Word32) : FWord F :=
  Vector.ofFn fun i : Fin 32 => embed F x[i]

/-- A sequence of words as elements of `F`. -/
def embedWords (F : Type) [Field F] {n : Nat} (v : Vector Word32 n) : Vector (FWord F) n :=
  Vector.ofFn fun i : Fin n => embedWord F v[i]

section Forms

variable {F : Type} [Field F]

/-- `a·b` (R100). -/
def andForm (a b : F) : F := a * b

/-- `a + b − a·b` (R101). -/
def orForm (a b : F) : F := a + b - a * b

/-- `a + b − 2·a·b` (R102). -/
def xorForm (a b : F) : F := a + b - 2 * a * b

/-- `1 − a` (R103). -/
def notForm (a : F) : F := 1 - a

/-- `a + b + c − 2(ab + ac + bc) + 4abc` (R106). -/
def sumForm (a b c : F) : F := a + b + c - 2 * (a * b + a * c + b * c) + 4 * a * b * c

/-- `ab + ac + bc − 2abc` (R106). -/
def carryForm (a b c : F) : F := a * b + a * c + b * c - 2 * a * b * c

/-- Lane by lane on two words of field elements (R117). -/
def fLanes (g : F → F → F) (x y : FWord F) : FWord F := Vector.ofFn fun i : Fin 32 => g x[i] y[i]

/-- Lane by lane on one word of field elements. -/
def fLanes1 (g : F → F) (x : FWord F) : FWord F := Vector.ofFn fun i : Fin 32 => g x[i]

/-- Rotate right (R104): a permutation of the elements. -/
def fRotate (x : FWord F) (n : Nat) : FWord F :=
  Vector.ofFn fun i : Fin 32 => x[(i.val + (32 - n % 32)) % 32]'(Nat.mod_lt _ (by decide))

/-- Shift right (R105): vacated elements are `0_F`. -/
def fShift (x : FWord F) (n : Nat) : FWord F :=
  Vector.ofFn fun i : Fin 32 =>
    if i.val < n then 0 else x[i.val - n]'(Nat.lt_of_le_of_lt (Nat.sub_le _ _) i.isLt)

/-- Ripple-carry addition of element sequences by field operations (R107). -/
def fRipple : List F → List F → List F × F
  | a :: as, b :: bs =>
    let r := fRipple as bs
    (sumForm a b r.2 :: r.1, carryForm a b r.2)
  | _, _ => ([], 0)

/-- Addition of two words by field operations (R107): element `i` of the ripple. -/
def fAdd2 (x y : FWord F) : FWord F :=
  Vector.ofFn fun i : Fin 32 => (fRipple x.toList y.toList).1.getD i.val 0

/-- The left fold of `fAdd2` (R108). -/
def fAdd32 (x : FWord F) (rest : List (FWord F)) : FWord F := rest.foldl fAdd2 x

/-- σ0 by field operations (R130). -/
def fSSigma0 (x : FWord F) : FWord F :=
  fLanes xorForm (fLanes xorForm (fRotate x 7) (fRotate x 18)) (fShift x 3)

/-- σ1 by field operations (R131). -/
def fSSigma1 (x : FWord F) : FWord F :=
  fLanes xorForm (fLanes xorForm (fRotate x 17) (fRotate x 19)) (fShift x 10)

/-- S0 by field operations (R132). -/
def fBSigma0 (x : FWord F) : FWord F :=
  fLanes xorForm (fLanes xorForm (fRotate x 2) (fRotate x 13)) (fRotate x 22)

/-- S1 by field operations (R133). -/
def fBSigma1 (x : FWord F) : FWord F :=
  fLanes xorForm (fLanes xorForm (fRotate x 6) (fRotate x 11)) (fRotate x 25)

/-- ch by field operations (R134). -/
def fCh (e f g : FWord F) : FWord F :=
  fLanes xorForm (fLanes andForm e f) (fLanes andForm (fLanes1 notForm e) g)

/-- maj by field operations (R135). -/
def fMaj (a b c : FWord F) : FWord F :=
  fLanes xorForm (fLanes xorForm (fLanes andForm a b) (fLanes andForm a c)) (fLanes andForm b c)

/-- The schedule's entry `t` from the entries before it, by field operations (R136). -/
def fSchedTerm (w : Vector (FWord F) 64) (t : Fin 64) : FWord F :=
  fAdd32 (fSSigma1 (w[t.val - 2]'(Nat.lt_of_le_of_lt (Nat.sub_le _ _) t.isLt)))
    [w[t.val - 7]'(Nat.lt_of_le_of_lt (Nat.sub_le _ _) t.isLt),
     fSSigma0 (w[t.val - 15]'(Nat.lt_of_le_of_lt (Nat.sub_le _ _) t.isLt)),
     w[t.val - 16]'(Nat.lt_of_le_of_lt (Nat.sub_le _ _) t.isLt)]

/-- The message schedule by field operations (R136). -/
def fSchedule (m : Vector (FWord F) 16) : Vector (FWord F) 64 :=
  ((List.finRange 64).drop 16).foldl (fun w t => w.set t.val (fSchedTerm w t) t.isLt)
    (Vector.ofFn fun t : Fin 64 => if h : t.val < 16 then m[t.val] else Vector.replicate 32 0)

/-- One round by field operations (R137). -/
def fRoundStep (t : Fin 64) (wr : Vector (FWord F) 8) (wt : FWord F) : Vector (FWord F) 8 :=
  let t1 := fAdd32 wr[7] [fBSigma1 wr[4], fCh wr[4] wr[5] wr[6], embedWord F (romK t), wt]
  let t2 := fAdd32 (fBSigma0 wr[0]) [fMaj wr[0] wr[1] wr[2]]
  #v[fAdd32 t1 [t2], wr[0], wr[1], wr[2], fAdd32 wr[3] [t1], wr[4], wr[5], wr[6]]

/-- The compression function by field operations (R138). -/
def fCompress (st : Vector (FWord F) 8) (m : Vector (FWord F) 16) : Vector (FWord F) 8 :=
  let wr := (List.finRange 64).foldl (fun wr t => fRoundStep t wr (fSchedule m)[t]) st
  Vector.ofFn fun i : Fin 8 => fAdd32 st[i] [wr[i]]

end Forms

end Sys2Proof.Machine
end

