-- ==== Sys2Proof/Machine/Reference.lean ====
section
/-! DEFINITION. The reference SHA256 that spec/44_native_engine.md R152 compares the native engine
with, on ordinary 32-bit numbers and bytes: the integer view that spec/43_compression.md R141 says
must agree with the FieldBit machine and must not define it. Nothing of the machine calls it. The
spec names the reference and does not write it out; this is the standard's algorithm on machine
words (PRESUMED, log entry 16). -/

namespace Sys2Proof.Machine

/-- A Word32 as an ordinary 32-bit number. -/
def toNum (x : Word32) : BitVec 32 := BitVec.ofNat 32 (val x)

/-- Words as ordinary numbers. -/
def toNums {n : Nat} (v : Vector Word32 n) : Vector (BitVec 32) n :=
  Vector.ofFn fun i : Fin n => toNum v[i]

/-- σ0 on numbers. -/
def refS0 (x : BitVec 32) : BitVec 32 := x.rotateRight 7 ^^^ x.rotateRight 18 ^^^ (x >>> 3)

/-- σ1 on numbers. -/
def refS1 (x : BitVec 32) : BitVec 32 := x.rotateRight 17 ^^^ x.rotateRight 19 ^^^ (x >>> 10)

/-- S0 on numbers. -/
def refB0 (x : BitVec 32) : BitVec 32 := x.rotateRight 2 ^^^ x.rotateRight 13 ^^^ x.rotateRight 22

/-- S1 on numbers. -/
def refB1 (x : BitVec 32) : BitVec 32 := x.rotateRight 6 ^^^ x.rotateRight 11 ^^^ x.rotateRight 25

/-- ch on numbers. -/
def refCh (e f g : BitVec 32) : BitVec 32 := (e &&& f) ^^^ (~~~e &&& g)

/-- maj on numbers. -/
def refMaj (a b c : BitVec 32) : BitVec 32 := (a &&& b) ^^^ (a &&& c) ^^^ (b &&& c)

/-- The schedule's entry `t` on numbers. -/
def refTerm (w : Vector (BitVec 32) 64) (t : Fin 64) : BitVec 32 :=
  refS1 (w[t.val - 2]'(Nat.lt_of_le_of_lt (Nat.sub_le _ _) t.isLt)) +
    w[t.val - 7]'(Nat.lt_of_le_of_lt (Nat.sub_le _ _) t.isLt) +
    refS0 (w[t.val - 15]'(Nat.lt_of_le_of_lt (Nat.sub_le _ _) t.isLt)) +
    w[t.val - 16]'(Nat.lt_of_le_of_lt (Nat.sub_le _ _) t.isLt)

/-- The message schedule on numbers. -/
def refSchedule (m : Vector (BitVec 32) 16) : Vector (BitVec 32) 64 :=
  ((List.finRange 64).drop 16).foldl (fun w t => w.set t.val (refTerm w t) t.isLt)
    (Vector.ofFn fun t : Fin 64 => if h : t.val < 16 then m[t.val] else 0)

/-- One round on numbers. -/
def refRound (t : Fin 64) (wr : Vector (BitVec 32) 8) (wt : BitVec 32) : Vector (BitVec 32) 8 :=
  let t1 := wr[7] + refB1 wr[4] + refCh wr[4] wr[5] wr[6] + BitVec.ofNat 32 romKHex[t] + wt
  let t2 := refB0 wr[0] + refMaj wr[0] wr[1] wr[2]
  #v[t1 + t2, wr[0], wr[1], wr[2], wr[3] + t1, wr[4], wr[5], wr[6]]

/-- One block on numbers. -/
def refCompress (st : Vector (BitVec 32) 8) (m : Vector (BitVec 32) 16) : Vector (BitVec 32) 8 :=
  let wr := (List.finRange 64).foldl (fun wr t => refRound t wr (refSchedule m)[t]) st
  Vector.ofFn fun i : Fin 8 => st[i] + wr[i]

/-- The padded message in bytes: 0x80, zero bytes up to 56 modulo 64, the bit length in eight bytes,
most significant first. -/
def refPad (m : List (Fin 256)) : List Nat :=
  m.map (fun b => b.val) ++ [0x80] ++ List.replicate ((55 + (64 - m.length % 64)) % 64) 0 ++
    (List.range 8).map fun i => 8 * m.length / 256 ^ (7 - i) % 256

/-- Word `k` of block `j` of padded bytes, four bytes to a word, most significant first. -/
def refWord (p : List Nat) (j k : Nat) : BitVec 32 :=
  let a := 64 * j + 4 * k
  BitVec.ofNat 32 (p.getD a 0 * 2 ^ 24 + p.getD (a + 1) 0 * 2 ^ 16 + p.getD (a + 2) 0 * 2 ^ 8 +
    p.getD (a + 3) 0)

/-- SHA256 of a byte sequence, eight 32-bit numbers. -/
def referenceSha256 (m : List (Fin 256)) : Vector (BitVec 32) 8 :=
  (List.range ((refPad m).length / 64)).foldl
    (fun st j => refCompress st (Vector.ofFn fun k : Fin 16 => refWord (refPad m) j k.val))
    (Vector.ofFn fun i : Fin 8 => BitVec.ofNat 32 romHHex[i])

end Sys2Proof.Machine
end

