-- ==== Sys2Proof/Machine/Sequencer.lean ====
section
/-! DEFINITION. The sequencer inside one compression (spec/43_compression.md R140), micro-step by
micro-step on the datapath registers. No command is defined by it: a command is atomic and
`compress` is its meaning; R140 asks that the two agree, which is a statement for the provers
(log entry 9). -/

namespace Sys2Proof.Machine

/-- The phases of R140. -/
inductive SeqPhase where
  | load
  | schedule
  | rounds
  | final
  deriving DecidableEq, Repr

/-- A position of the sequencer: the phase, and the datapath registers with the counter `t`. -/
structure SeqPos where
  phase : SeqPhase
  dp : Datapath
  deriving DecidableEq, Repr

/-- The next value of a counter that stops at 63. -/
def nextCount (t : Fin 64) : Fin 64 := if h : t.val + 1 < 64 then ⟨t.val + 1, h⟩ else t

/-- One micro-step of the compression of block `m` from state `st` (R140). -/
def microStep (st : Vector Word32 8) (m : Vector Word32 16) (q : SeqPos) : SeqPos :=
  match q.phase with
  | .load => { phase := .schedule, dp := { wr := st, w := loadBlock q.dp.w m, t := 16 } }
  | .schedule =>
    if q.dp.t.val = 63 then
      { phase := .rounds, dp := { q.dp with w := schedStep q.dp.w q.dp.t, t := 0 } }
    else { q with dp := { q.dp with w := schedStep q.dp.w q.dp.t, t := nextCount q.dp.t } }
  | .rounds =>
    if q.dp.t.val = 63 then
      { phase := .final, dp := { q.dp with wr := roundStep q.dp.t q.dp.wr q.dp.w[q.dp.t] } }
    else
      { q with
        dp := { q.dp with
          wr := roundStep q.dp.t q.dp.wr q.dp.w[q.dp.t]
          t := nextCount q.dp.t } }
  | .final => q

/-- `n` micro-steps. -/
def microRun (st : Vector Word32 8) (m : Vector Word32 16) : Nat → SeqPos → SeqPos
  | 0, q => q
  | n + 1, q => microRun st m n (microStep st m q)

/-- The 113 micro-steps of R140 from whatever the datapath holds, and the final add. -/
def sequencedCompress (dp : Datapath) (st : Vector Word32 8) (m : Vector Word32 16) :
    Vector Word32 8 :=
  finalAdd st (microRun st m 113 { phase := .load, dp := dp }).dp.wr

end Sys2Proof.Machine
end

