-- ==== Sys2Proof/Safety.lean ====
section
/-! DEFINITION. What counts as a legal state and a safe step, in the terms the statements use. -/

namespace Sys2Proof.Machine

/-- The invariant of the machine (spec/10_state.md R16, R18, R19, R28; spec/00_scope.md section 4):
while a context exists its message is `512·NBLK` FieldBits within the limits of R69 and R180 and
`IDX ≤ NBLK`, Initialized means a block is left, Advanced means one was consumed; with no context the
counters are 0 and MSG is empty; the capacity is one the spec admits. -/
structure StateInv (s : State) : Prop where
  aligned : s.msg.length = 512 * s.nblk
  idx_le : s.idx ≤ s.nblk
  fits : s.msg.length ≤ s.maxMsgBits
  below_limit : s.msg.length < 2 ^ 64
  empty_zero : s.phase = .empty → s.nblk = 0
  initialized_lt : s.phase = .initialized → s.idx < s.nblk
  advanced_pos : s.phase = .advanced → 0 < s.idx
  capacity_blocks : s.maxMsgBits % 512 = 0
  capacity_limit : s.maxMsgBits ≤ Config.maxMsgBitsLimit

/-- The dynamic context (R160) and the capacity are the same in two states. -/
structure SameContext (s t : State) : Prop where
  hs : t.hs = s.hs
  idx : t.idx = s.idx
  nblk : t.nblk = s.nblk
  msg : t.msg = s.msg
  phase : t.phase = s.phase
  capacity : t.maxMsgBits = s.maxMsgBits

/-- The registers no command writes but as a whole and that hold no value between commands, and the
model's own counter, are the same in two states: nothing of the datapath was used. -/
structure SameDatapath (s t : State) : Prop where
  dp : t.dp = s.dp
  free : t.free = s.free

/-- The command ended with the error `k`: the response carries its status and nothing else, one
`ERRLOG` bit is set, nothing else is written (R183). -/
structure EndsWithError (k : ErrorKind) (s t : State) : Prop where
  response : t.response = some { status := .error k, payload := [] }
  errlog : t.errlog = s.errlog ||| k.logBit
  context : SameContext s t
  datapath : SameDatapath s t
  pending : t.pending = s.pending
  consumed : t.payload = []

/-- The command completed with status OK, the payload `out` and no change of the context, the error
log or the commands still to come. -/
structure EndsOk (out : List Item) (s t : State) : Prop where
  response : t.response = some { status := .ok, payload := out }
  errlog : t.errlog = s.errlog
  context : SameContext s t
  pending : t.pending = s.pending
  consumed : t.payload = []

/-- `EndsOk`, and the datapath was not used: nothing at all is written but the ports. -/
structure EndsPure (out : List Item) (s t : State) : Prop where
  ok : EndsOk out s t
  datapath : SameDatapath s t

/-- The payloads the capacity rules let a command take (spec/30_encoding.md R66 "in" column, R69;
spec/40_framing.md R83): the row's item types and counts, and the bit counts within `cap`. -/
def PayloadTaken (cap : Nat) : Instr → List Item → Prop
  | .toBits, p | .hash, p =>
    ∃ m, p = ofBytes m ∧ 8 * m.length < 2 ^ 64 ∧ 512 * ((8 * m.length + 64) / 512 + 1) ≤ cap
  | .hexToBits, p => ∃ cs, p = ofChars cs ∧ 4 * cs.length < 2 ^ 64 ∧ 4 * cs.length ≤ cap
  | .bitsToHex, p => ∃ bs, p = ofBits bs ∧ bs.length < 2 ^ 64 ∧ bs.length ≤ cap
  | .pad, p =>
    ∃ m, p = ofBits m ∧ m.length < 2 ^ 64 ∧ 512 * ((m.length + 64) / 512 + 1) ≤ cap
  | .hashX, p =>
    ∃ cs, p = ofChars cs ∧ 4 * cs.length < 2 ^ 64 ∧ 512 * ((4 * cs.length + 64) / 512 + 1) ≤ cap
  | .fAnd, p | .fOr, p | .fXor, p => ∃ v : Vector Word32 2, p = ofWords v
  | .fNot, p | .fRotr _, p | .fShr _, p => ∃ v : Vector Word32 1, p = ofWords v
  | .fAdd k, p => ∃ v : Vector Word32 k.val, p = ofWords v
  | .rdH _, p | .rdK _, p => p = []
  | .sSig0, p | .sSig1, p | .bSig0, p | .bSig1, p => ∃ v : Vector Word32 1, p = ofWords v
  | .ch, p | .maj, p => ∃ v : Vector Word32 3, p = ofWords v
  | .sched, p => ∃ v : Vector Word32 16, p = ofWords v
  | .round _, p => ∃ v : Vector Word32 9, p = ofWords v
  | .compress, p => ∃ (st : Vector Word32 8) (m : Vector Word32 16), p = ofWords st ++ ofWords m
  | .dInit b, p =>
    ∃ o, p = ofInit o ∧ o.index < 2 ^ 64 ∧ o.prior.isSome = b ∧ o.message.length < 2 ^ 64 ∧
      o.message.length ≤ cap
  | .dStep, p | .dStat, p | .dDrop, p => p = []

/-- The commands of groups 0x0_ to 0x4_, which never touch the dynamic context (R27, R66). -/
def pureGroup : Instr → Bool
  | .toBits | .hexToBits | .bitsToHex | .pad => true
  | .fAnd | .fOr | .fXor | .fNot | .fRotr _ | .fShr _ | .fAdd _ => true
  | .rdH _ | .rdK _ => true
  | .sSig0 | .sSig1 | .bSig0 | .bSig1 | .ch | .maj | .sched | .round _ | .compress => true
  | .hash | .hashX => true
  | .dInit _ | .dStep | .dStat | .dDrop => false

/-- `n` DSTEPs, one after another, with no other command between. -/
def dStepTimes : Nat → State → Result
  | 0, s => .next s
  | n + 1, s =>
    match exec .dStep s with
    | .next t => dStepTimes n t
    | .fault r => .fault r
    | .refused r => .refused r

/-- The first 64 primes, as R120 lists them. -/
def firstPrimes : Vector Nat 64 :=
  #v[2, 3, 5, 7, 11, 13, 17, 19, 23, 29, 31, 37, 41, 43, 47, 53,
     59, 61, 67, 71, 73, 79, 83, 89, 97, 101, 103, 107, 109, 113, 127, 131,
     137, 139, 149, 151, 157, 163, 167, 173, 179, 181, 191, 193, 197, 199, 211, 223,
     227, 229, 233, 239, 241, 251, 257, 263, 269, 271, 277, 281, 283, 293, 307, 311]

end Sys2Proof.Machine
end

