-- ==== Sys2Proof/Certificates/Slice0/Obligations.lean ====
section
/-! DEFINITION. The statements about the machine, for the provers. Each docstring names the rule of
spec/ it formalises; OBLIGATIONS.json lists them. -/

open Sys2Proof Sys2Proof.Machine

/-! ### Encoding -/

/-- R61, R62, R66, R67: every well-formed command, with every immediate the encoding admits, decodes
from its command word. -/
def Obligations.DecodeInvertsEncode : Prop :=
  ∀ i : Instr, i.wellFormed = true → decode (encode i) = .ok i

/-- R66, R67, R68: a word that decodes is the word of the command it decodes to, so no two words are
one command and no bit is ignored. -/
def Obligations.EncodeInvertsDecode : Prop :=
  ∀ (cw : BitVec 16) (i : Instr), decode cw = .ok i → i.wellFormed = true ∧ encode i = cw

/-- R66 with R68 (a), (b), (c): the legal words are those that match a row of the opcode map, with
FADD's `k` (bits 2:0) in 1..5; every other word is rejected. -/
def Obligations.LegalWordsExactly : Prop :=
  ∀ cw : BitVec 16, (∃ i, decode cw = .ok i) ↔
    ((∃ row ∈ [(0x0100#16, 0xFFFF#16), (0x0200, 0xFFFF), (0x0300, 0xFFFF), (0x0400, 0xFFFF),
        (0x1000, 0xFFFF), (0x1100, 0xFFFF), (0x1200, 0xFFFF), (0x1300, 0xFFFF), (0x1400, 0xFF00),
        (0x1500, 0xFF00), (0x1600, 0xFFF8), (0x2000, 0xFFF8), (0x2100, 0xFFC0), (0x3000, 0xFFFF),
        (0x3100, 0xFFFF), (0x3200, 0xFFFF), (0x3300, 0xFFFF), (0x3400, 0xFFFF), (0x3500, 0xFFFF),
        (0x3600, 0xFFFF), (0x3700, 0xFFC0), (0x3800, 0xFFFF), (0x4000, 0xFFFF), (0x4100, 0xFFFF),
        (0x5000, 0xFFFE), (0x5100, 0xFFFF), (0x5200, 0xFFFF), (0x5300, 0xFFFF)],
        cw &&& row.2 = row.1) ∧
      (cw &&& 0xFFF8 = 0x1600 → 1 ≤ (cw &&& 7).toNat ∧ (cw &&& 7).toNat ≤ 5))

/-- R66 and spec/95_test_vectors.md 2.10: words written out from the opcode map, one or more for each
family, decode to the command they stand for; words the spec lists as illegal do not. -/
def Obligations.DecodesSpecWords : Prop :=
  decode 0x0100 = .ok .toBits ∧ decode 0x0400 = .ok .pad ∧ decode 0x1407 = .ok (.fRotr 7) ∧
  decode 0x14ff = .ok (.fRotr 255) ∧ decode 0x150a = .ok (.fShr 10) ∧
  decode 0x1605 = .ok (.fAdd 5) ∧ decode 0x2007 = .ok (.rdH 7) ∧ decode 0x213f = .ok (.rdK 63) ∧
  decode 0x373f = .ok (.round 63) ∧ decode 0x3800 = .ok .compress ∧ decode 0x4000 = .ok .hash ∧
  decode 0x5001 = .ok (.dInit true) ∧ decode 0x5100 = .ok .dStep ∧
  decode 0x1600 = .error .faddCount ∧ decode 0x1606 = .error .faddCount ∧
  decode 0x5101 = .error .reservedImmediate ∧ decode 0x0500 = .error .unassignedOpcode

/-! ### The step -/

/-- R6, R60: when the presented command's word decodes to `i`, the step is `exec i` in the state in
which that command has left the queue and its payload stands on the port. -/
def Obligations.StepRunsDecoded : Prop :=
  ∀ (s : State) (c : Command) (rest : List Command) (i : Instr),
    s.pending = c :: rest → decode c.word = .ok i →
    step s = exec i { s with pending := rest, payload := c.payload }

/-- R68 (a), (b), (c): a command word that does not decode is answered with IllegalCommand, sets
ERRLOG bit 3 and changes nothing else but the queue. -/
def Obligations.StepAnswersIllegalWord : Prop :=
  ∀ (s : State) (c : Command) (rest : List Command) (e : DecodeError),
    s.pending = c :: rest → decode c.word = .error e →
    ∃ t, step s = .next t ∧
      EndsWithError .illegalCommand { s with pending := rest, payload := c.payload } t

/-- R26 and log entry 6 (the model's choice): with no command presented a step changes nothing. -/
def Obligations.StepWaitsWithNoCommand : Prop :=
  ∀ s : State, s.pending = [] → step s = .next s

/-- R60: a command that is performed leaves the queue and yields exactly one response, whose payload
is empty whenever its status is not OK; nothing of the command's payload stays on the port (the
model's choice, log entry 7). -/
def Obligations.OneResponsePerCommand : Prop :=
  ∀ (s t : State) (c : Command) (rest : List Command),
    s.pending = c :: rest → step s = .next t →
    t.pending = rest ∧ t.payload = [] ∧
      ∃ r, t.response = some r ∧ (r.status ≠ .ok → r.payload = [])

/-- R68 (c), (d), R69, R83, R180: a command ends as illegal exactly when its immediate or its payload is
not one its row admits, is of 2^64 bits or more (R180), or is over the capacity as log entry 10 reads
it (the model's inference); content never makes a command illegal. -/
def Obligations.IllegalPayloadExactly : Prop :=
  ∀ (i : Instr) (s : State),
    (∃ t, exec i s = .next t ∧ EndsWithError .illegalCommand s t) ↔
      ¬ (i.wellFormed = true ∧ PayloadTaken s.maxMsgBits i s.payload)

/-! ### FieldBits and words -/

/-- R100 to R103: the truth tables, and in every field the field forms that take the same values. -/
def Obligations.TruthTablesAndFieldForms : Prop :=
  (∀ a b : FieldBit,
    (fbAnd a b = .one ↔ a = .one ∧ b = .one) ∧ (fbOr a b = .zero ↔ a = .zero ∧ b = .zero) ∧
    fbXor a b = (if a = b then .zero else .one) ∧ (fbNot a = .one ↔ a = .zero)) ∧
  ∀ (F : Type) (_ : Field F) (a b : FieldBit),
    embed F (fbAnd a b) = embed F a * embed F b ∧
    embed F (fbOr a b) = embed F a + embed F b - embed F a * embed F b ∧
    embed F (fbXor a b) = embed F a + embed F b - 2 * embed F a * embed F b ∧
    embed F (fbNot a) = 1 - embed F a

/-- R106: the full adder's equations, its arithmetic, and its field form in every field. -/
def Obligations.FullAdderArithmetic : Prop :=
  (∀ a b c : FieldBit,
    fbSum a b c = fbXor (fbXor a b) c ∧
    fbCarry a b c = fbXor (fbXor (fbAnd a b) (fbAnd a c)) (fbAnd b c) ∧
    bitVal a + bitVal b + bitVal c = bitVal (fbSum a b c) + 2 * bitVal (fbCarry a b c)) ∧
  ∀ (F : Type) (_ : Field F) (a b c : FieldBit),
    embed F (fbSum a b c) = sumForm (embed F a) (embed F b) (embed F c) ∧
    embed F (fbCarry a b c) = carryForm (embed F a) (embed F b) (embed F c)

/-- R10, R12: in every field the model's FieldBit is the subtype `{e // e = 0_F ∨ e = 1_F}`, and
embedding it in `F` and reading its digit agree. -/
def Obligations.FieldBitIsSubtype : Prop :=
  ∀ (F : Type) (_ : Field F),
    Function.Bijective (toSubtype F) ∧ (∀ e, (toSubtype F e).val = embed F e) ∧
    (embed F (.zero) ≠ embed F (.one)) ∧ (∀ e : FieldBit, beta (bitVal e) = e)

/-- R104: rotate right is a permutation that sends element `i` to `(i + n) mod 32`; amounts are taken
modulo 32; the derived view on numbers. -/
def Obligations.RotateFunction : Prop :=
  ∀ (x : Word32) (n : Nat),
    (∀ i : Fin 32, (rotr x n)[(i.val + n) % 32]'(Nat.mod_lt _ (by decide)) = x[i]) ∧
    rotr x 0 = x ∧ rotr x 32 = x ∧ rotr x n = rotr x (n % 32) ∧
    val (rotr x n) = val x / 2 ^ (n % 32) + val x % 2 ^ (n % 32) * 2 ^ (32 - n % 32)

/-- R105: shift right moves element `i` to `i + n` and fills with `0_F`; 32 or more gives zero; the
derived view on numbers. -/
def Obligations.ShiftFunction : Prop :=
  ∀ (x : Word32) (n : Nat),
    (∀ i : Fin 32, i.val < n → (shr x n)[i] = .zero) ∧
    (∀ (i : Fin 32) (h : i.val + n < 32), (shr x n)[i.val + n]'h = x[i]) ∧
    shr x 0 = x ∧ (32 ≤ n → shr x n = Word32.zero) ∧ val (shr x n) = val x / 2 ^ n

/-- R107: `add2` is the ripple of full adders from index 31 to index 0 with carry in `0_F`, the carry
out of index 0 discarded; the derived view on numbers. -/
def Obligations.RippleAddition : Prop :=
  ∀ x y : Word32,
    (∃ c : Nat → FieldBit, c 32 = .zero ∧ ∀ i : Fin 32,
      (add2 x y)[i] = fbSum x[i] y[i] (c (i.val + 1)) ∧ c i.val = fbCarry x[i] y[i] (c (i.val + 1))) ∧
    val (add2 x y) = (val x + val y) % 2 ^ 32

/-- R108: `add32` folds `add2` from the left, one operand is itself, and it adds modulo 2^32. -/
def Obligations.VariadicAddition : Prop :=
  ∀ (x y : Word32) (rest : List Word32),
    add32 x [] = x ∧ add32 x (rest ++ [y]) = add2 (add32 x rest) y ∧
    val (add32 x rest) = (val x + (rest.map val).sum) % 2 ^ 32

/-- R116: the arithmetic laws of addition, rotation, shift and the lane operations. -/
def Obligations.ArithmeticLaws : Prop :=
  ∀ (x y z : Word32) (xs ys : List Word32) (m n : Nat),
    add32 x [y] = add32 y [x] ∧
    add32 (add32 x [y]) [z] = add32 x [add32 y [z]] ∧ add32 (add32 x [y]) [z] = add32 x [y, z] ∧
    (List.Perm (x :: xs) (y :: ys) → add32 x xs = add32 y ys) ∧
    add32 x [Word32.zero] = x ∧
    rotr (rotr x m) n = rotr x (m + n) ∧ rotr x 32 = x ∧ rotr x 0 = x ∧
    shr (shr x m) n = shr x (m + n) ∧
    wAnd x y = wAnd y x ∧ wOr x y = wOr y x ∧ wXor x y = wXor y x ∧
    wAnd (wAnd x y) z = wAnd x (wAnd y z) ∧ wOr (wOr x y) z = wOr x (wOr y z) ∧
    wXor (wXor x y) z = wXor x (wXor y z)

/-! ### Commands of the bit-level field operations -/

/-- R109 to R112: FAND, FOR, FXOR and FNOT complete on every operand with the word whose every lane is
the lanes' AND, OR, XOR or NOT, and write nothing but the ports. -/
def Obligations.LanewiseCommands : Prop :=
  ∀ (s : State) (x y : Word32),
    (s.payload = ofWords #v[x, y] →
      (∃ r t, exec .fAnd s = .next t ∧ EndsPure [Item.ofWord r] s t ∧
        ∀ i : Fin 32, r[i] = .one ↔ x[i] = .one ∧ y[i] = .one) ∧
      (∃ r t, exec .fOr s = .next t ∧ EndsPure [Item.ofWord r] s t ∧
        ∀ i : Fin 32, r[i] = .one ↔ x[i] = .one ∨ y[i] = .one) ∧
      (∃ r t, exec .fXor s = .next t ∧ EndsPure [Item.ofWord r] s t ∧
        ∀ i : Fin 32, r[i] = .one ↔ x[i] ≠ y[i])) ∧
    (s.payload = ofWords #v[x] →
      ∃ r t, exec .fNot s = .next t ∧ EndsPure [Item.ofWord r] s t ∧
        ∀ i : Fin 32, r[i] = .one ↔ x[i] = .zero)

/-- R113, R114: FROTR and FSHR complete for every amount 0..255 and every word, and write nothing but
the ports. -/
def Obligations.RotateAndShiftCommands : Prop :=
  ∀ (s : State) (x : Word32) (n : Fin 256), s.payload = ofWords #v[x] →
    (∃ r t, exec (.fRotr n) s = .next t ∧ EndsPure [Item.ofWord r] s t ∧
      ∀ i : Fin 32, r[(i.val + n.val) % 32]'(Nat.mod_lt _ (by decide)) = x[i]) ∧
    (∃ r t, exec (.fShr n) s = .next t ∧ EndsPure [Item.ofWord r] s t ∧
      (∀ i : Fin 32, i.val < n.val → r[i] = .zero) ∧
      ∀ (i : Fin 32) (h : i.val + n.val < 32), r[i.val + n.val]'h = x[i])

/-- R115: FADD of `k` words, `1 ≤ k ≤ 5`, completes with their sum modulo 2^32 and writes nothing but
the ports; `k` of 0, 6 or 7, or a payload of other than `k` words, is an IllegalCommand. -/
def Obligations.AddCommand : Prop :=
  ∀ (s : State) (k : Fin 8),
    (∀ v : Vector Word32 k.val, 1 ≤ k.val → k.val ≤ 5 → s.payload = ofWords v →
      ∃ r t, exec (.fAdd k) s = .next t ∧ EndsPure [Item.ofWord r] s t ∧
        val r = (v.toList.map val).sum % 2 ^ 32) ∧
    ((k.val = 0 ∨ 5 < k.val ∨ ∀ v : Vector Word32 k.val, s.payload ≠ ofWords v) →
      ∃ t, exec (.fAdd k) s = .next t ∧ EndsWithError .illegalCommand s t)

/-! ### Constant ROM -/

/-- R123, R124: RDH and RDK complete for every index with the ROM's word and write nothing but the
ports. -/
def Obligations.RomReadCommands : Prop :=
  ∀ (s : State) (i : Fin 8) (t : Fin 64), s.payload = [] →
    (∃ r s', exec (.rdH i) s = .next s' ∧ EndsPure [Item.ofWord r] s s' ∧ val r = romHHex[i]) ∧
    (∃ r s', exec (.rdK t) s = .next s' ∧ EndsPure [Item.ofWord r] s s' ∧ val r = romKHex[t])

/-- R120: the ROM's words are the first 32 bits, truncated, of the fractional parts of the square
roots of the first 8 primes and of the cube roots of the first 64. -/
def Obligations.RomFromPrimes : Prop :=
  (firstPrimes.toList.Pairwise (· < ·) ∧ ∀ q : Nat, q ≤ 311 → (q.Prime ↔ q ∈ firstPrimes.toList)) ∧
  (∀ i : Fin 8, ∃ r : Nat,
    r ^ 2 ≤ firstPrimes[i.val] * 2 ^ 64 ∧ firstPrimes[i.val] * 2 ^ 64 < (r + 1) ^ 2 ∧
    val (romH i) = r % 2 ^ 32) ∧
  (∀ t : Fin 64, ∃ r : Nat,
    r ^ 3 ≤ firstPrimes[t] * 2 ^ 96 ∧ firstPrimes[t] * 2 ^ 96 < (r + 1) ^ 3 ∧
    val (romK t) = r % 2 ^ 32)

/-! ### Framing -/

/-- R80, R42: TOBITS completes on every byte sequence within the capacity with its bits, most
significant first, and writes nothing but the ports. -/
def Obligations.ToBitsCommand : Prop :=
  ∀ (s : State) (m : List (Fin 256)), s.payload = ofBytes m →
    8 * m.length < 2 ^ 64 → 512 * ((8 * m.length + 64) / 512 + 1) ≤ s.maxMsgBits →
    ∃ out t, exec .toBits s = .next t ∧ EndsPure (ofBits out) s t ∧ out.length = 8 * m.length ∧
      ∀ (j : Fin m.length) (b : Fin 8), out[8 * j.val + b.val]? =
        some (if (m[j]).val.testBit (7 - b.val) then .one else .zero)

/-- R84: HEX2BITS completes on every even-length hex text within the capacity with the digits' bits,
most significant first, and writes nothing but the ports; an odd length or a non-hex character is a
FormatError. -/
def Obligations.HexToBitsCommand : Prop :=
  ∀ (s : State) (cs : List Nat), s.payload = ofChars cs →
    4 * cs.length < 2 ^ 64 → 4 * cs.length ≤ s.maxMsgBits →
    (cs.length % 2 = 0 → (∀ c ∈ cs, hexval c ≠ none) →
      ∃ out t, exec .hexToBits s = .next t ∧ EndsPure (ofBits out) s t ∧
        out.length = 4 * cs.length ∧
        ∀ (j : Fin cs.length) (b : Fin 4), ∃ d, hexval cs[j] = some d ∧
          out[4 * j.val + b.val]? = some (if d.testBit (3 - b.val) then .one else .zero)) ∧
    ((cs.length % 2 = 1 ∨ ∃ c ∈ cs, hexval c = none) →
      ∃ t, exec .hexToBits s = .next t ∧ EndsWithError .formatError s t)

/-- R85: BITS2HEX completes on every bit sequence of whole bytes within the capacity with its
lower-case digits and writes nothing but the ports; any other length is a FormatError. -/
def Obligations.BitsToHexCommand : Prop :=
  ∀ (s : State) (bs : List FieldBit), s.payload = ofBits bs →
    bs.length < 2 ^ 64 → bs.length ≤ s.maxMsgBits →
    (bs.length % 8 = 0 →
      ∃ out t, exec .bitsToHex s = .next t ∧ EndsPure (ofChars out) s t ∧
        4 * out.length = bs.length ∧
        ∀ j : Fin out.length, ∃ a b c d : FieldBit,
          bs[4 * j.val]? = some a ∧ bs[4 * j.val + 1]? = some b ∧ bs[4 * j.val + 2]? = some c ∧
          bs[4 * j.val + 3]? = some d ∧
          out[j] = hexdigit (8 * bitVal a + 4 * bitVal b + 2 * bitVal c + bitVal d)) ∧
    (bs.length % 8 ≠ 0 → ∃ t, exec .bitsToHex s = .next t ∧ EndsWithError .formatError s t)

/-- R87: the hex digits' codes and values. -/
def Obligations.HexDigitTable : Prop :=
  (∀ d : Fin 10, hexval (0x30 + d.val) = some d.val ∧ hexdigit d.val = 0x30 + d.val) ∧
  (∀ d : Fin 6, hexval (0x61 + d.val) = some (10 + d.val) ∧
    hexval (0x41 + d.val) = some (10 + d.val) ∧ hexdigit (10 + d.val) = 0x61 + d.val) ∧
  ∀ c : Nat, (c < 0x30 ∨ (0x39 < c ∧ c < 0x41) ∨ (0x46 < c ∧ c < 0x61) ∨ 0x66 < c) →
    hexval c = none

/-- R86: hex of bytes' bits reads back as those bits, with no error on the way; and the hex of hex
text of even length is that text with upper case lowered. -/
def Obligations.HexRoundTrip : Prop :=
  (∀ m : List (Fin 256), ∃ cs, bitsToHex (toBits m) = some cs ∧ hexToBits cs = some (toBits m)) ∧
  ∀ cs : List Nat, cs.length % 2 = 0 → (∀ c ∈ cs, hexval c ≠ none) →
    ∃ bs, hexToBits cs = some bs ∧
      bitsToHex bs = some (cs.map fun c => if 0x41 ≤ c ∧ c ≤ 0x46 then c + 0x20 else c)

/-- R81, R82, R43: PAD completes on every message within the capacity; the result is the message, a
`1_F`, zeros and the 64-bit length, the fewest whole blocks that hold them, with the original length
beside it; nothing but the ports is written. -/
def Obligations.PadCommand : Prop :=
  ∀ (s : State) (m : List FieldBit), s.payload = ofBits m →
    m.length < 2 ^ 64 → 512 * ((m.length + 64) / 512 + 1) ≤ s.maxMsgBits →
    ∃ p t, exec .pad s = .next t ∧ EndsPure (ofBits p ++ [Item.nat m.length]) s t ∧
      p.length = 512 * ((m.length + 64) / 512 + 1) ∧ m.length + 65 ≤ p.length ∧
      p.take m.length = m ∧ p[m.length]? = some .one ∧
      (∀ i, m.length < i → i + 64 < p.length → p[i]? = some .zero) ∧
      ∀ i : Fin 64, p[p.length - 64 + i.val]? =
        some (if m.length.testBit (63 - i.val) then .one else .zero)

/-! ### Compression -/

/-- R130 to R133: SSIG0, SSIG1, BSIG0 and BSIG1 complete on every word with the spec's formula at
every index and write nothing but the ports. -/
def Obligations.SigmaCommands : Prop :=
  ∀ (s : State) (x : Word32), s.payload = ofWords #v[x] →
    let at' : Nat → FieldBit := fun i => x[i % 32]'(Nat.mod_lt _ (by decide))
    (∃ r t, exec .sSig0 s = .next t ∧ EndsPure [Item.ofWord r] s t ∧ ∀ i : Fin 32,
      r[i] = fbXor (fbXor (at' (i.val + 32 - 7)) (at' (i.val + 32 - 18)))
        (if i.val < 3 then .zero else at' (i.val - 3))) ∧
    (∃ r t, exec .sSig1 s = .next t ∧ EndsPure [Item.ofWord r] s t ∧ ∀ i : Fin 32,
      r[i] = fbXor (fbXor (at' (i.val + 32 - 17)) (at' (i.val + 32 - 19)))
        (if i.val < 10 then .zero else at' (i.val - 10))) ∧
    (∃ r t, exec .bSig0 s = .next t ∧ EndsPure [Item.ofWord r] s t ∧ ∀ i : Fin 32,
      r[i] = fbXor (fbXor (at' (i.val + 32 - 2)) (at' (i.val + 32 - 13))) (at' (i.val + 32 - 22))) ∧
    (∃ r t, exec .bSig1 s = .next t ∧ EndsPure [Item.ofWord r] s t ∧ ∀ i : Fin 32,
      r[i] = fbXor (fbXor (at' (i.val + 32 - 6)) (at' (i.val + 32 - 11))) (at' (i.val + 32 - 25)))

/-- R134, R135: CH completes with the choice of each lane and MAJ with the majority of each lane; they
write nothing but the ports. -/
def Obligations.ChAndMajCommands : Prop :=
  ∀ (s : State) (x y z : Word32), s.payload = ofWords #v[x, y, z] →
    (∃ r t, exec .ch s = .next t ∧ EndsPure [Item.ofWord r] s t ∧
      ∀ i : Fin 32, r[i] = if x[i] = .one then y[i] else z[i]) ∧
    (∃ r t, exec .maj s = .next t ∧ EndsPure [Item.ofWord r] s t ∧
      ∀ i : Fin 32, r[i] = if 2 ≤ bitVal x[i] + bitVal y[i] + bitVal z[i] then .one else .zero)

/-- R136: SCHED completes on every block with 64 words that begin with the block and meet the
recurrence at every later index; the context and the error log are unchanged. -/
def Obligations.SchedCommand : Prop :=
  ∀ (s : State) (m : Vector Word32 16), s.payload = ofWords m →
    ∃ (w : Vector Word32 64) (t : State), exec .sched s = .next t ∧ EndsOk (ofWords w) s t ∧
      (∀ j : Fin 16, w[j.val] = m[j]) ∧
      ∀ j : Fin 48, w[j.val + 16] =
        add32 (sSigma1 w[j.val + 14]) [w[j.val + 9], sSigma0 w[j.val + 1], w[j.val]]

/-- R137: ROUND completes for every `t` on every nine words with the round's eight words, every
right-hand side read from before the round; the context and the error log are unchanged. -/
def Obligations.RoundCommand : Prop :=
  ∀ (s : State) (t : Fin 64) (a b c d e f g h wt : Word32),
    s.payload = ofWords #v[a, b, c, d, e, f, g, h, wt] →
    let t1 := add32 h [bSigma1 e, chWord e f g, romK t, wt]
    let t2 := add32 (bSigma0 a) [majWord a b c]
    ∃ s', exec (.round t) s = .next s' ∧
      EndsOk (ofWords #v[add32 t1 [t2], a, b, c, add32 d [t1], e, f, g]) s s'

/-- R138, R139: COMPRESS completes on every state and block: the working registers start at the
state, run the 64 rounds in order on the schedule's words, and are added to the state; HS and the
rest of the context are neither read nor written. -/
def Obligations.CompressCommand : Prop :=
  ∀ (s : State) (st : Vector Word32 8) (m : Vector Word32 16),
    s.payload = ofWords st ++ ofWords m →
    ∃ (out : Vector Word32 8) (w : Vector Word32 64) (wr : Nat → Vector Word32 8) (t : State),
      exec .compress s = .next t ∧ EndsOk (ofWords out) s t ∧
      (∀ j : Fin 16, w[j.val] = m[j]) ∧
      (∀ j : Fin 48, w[j.val + 16] =
        add32 (sSigma1 w[j.val + 14]) [w[j.val + 9], sSigma0 w[j.val + 1], w[j.val]]) ∧
      wr 0 = st ∧ (∀ j : Fin 64, wr (j.val + 1) = roundStep j (wr j.val) w[j]) ∧
      ∀ i : Fin 8, out[i] = add32 st[i] [(wr 64)[i]]

/-- R140: the 113 micro-steps of the sequencer, from whatever the datapath registers hold, give the
compression function. -/
def Obligations.SequencerAgrees : Prop :=
  ∀ (dp : Datapath) (st : Vector Word32 8) (m : Vector Word32 16),
    sequencedCompress dp st m = compress st m

/-- R5, R8, R141: in every field, the compression written with field operations alone takes the
embedded state and block to the embedded result, so no machine-word operation is needed. -/
def Obligations.FieldOnlyCompression : Prop :=
  ∀ (F : Type) (_ : Field F) (st : Vector Word32 8) (m : Vector Word32 16),
    fCompress (embedWords F st) (embedWords F m) = embedWords F (compress st m)

/-! ### Native engine -/

/-- R150, R151, R152: HASH completes on every byte sequence within the capacity with the digest that
the reference SHA256 (log entry 16) gives it; the context and the error log are unchanged. -/
def Obligations.HashEqualsReference : Prop :=
  ∀ (s : State) (m : List (Fin 256)), s.payload = ofBytes m →
    8 * m.length < 2 ^ 64 → 512 * ((8 * m.length + 64) / 512 + 1) ≤ s.maxMsgBits →
    ∃ (d : Vector Word32 8) (t : State), exec .hash s = .next t ∧ EndsOk (ofWords d) s t ∧
      toNums d = referenceSha256 m

/-- R153: HASHX completes on the hex text of a byte sequence with HASH's digest of it; an odd length
or a non-hex character is a FormatError. -/
def Obligations.HashHexCommand : Prop :=
  ∀ (s : State) (cs : List Nat), s.payload = ofChars cs →
    4 * cs.length < 2 ^ 64 → 512 * ((4 * cs.length + 64) / 512 + 1) ≤ s.maxMsgBits →
    (∀ m : List (Fin 256), cs.length = 2 * m.length →
      (∀ j : Fin m.length, ∃ hi lo c d, cs[2 * j.val]? = some c ∧ cs[2 * j.val + 1]? = some d ∧
        hexval c = some hi ∧ hexval d = some lo ∧ (m[j]).val = 16 * hi + lo) →
      ∃ t, exec .hashX s = .next t ∧ EndsOk (ofWords (native m)) s t) ∧
    ((cs.length % 2 = 1 ∨ ∃ c ∈ cs, hexval c = none) →
      ∃ t, exec .hashX s = .next t ∧ EndsWithError .formatError s t)

/-- R152: the digest of the empty message, printed by the source. -/
def Obligations.EmptyMessageDigest : Prop :=
  (native []).toList.map val =
    [0xe3b0c442, 0x98fc1c14, 0x9afbf4c8, 0x996fb924, 0x27ae41e4, 0x649b934c, 0xa495991b, 0x7852b855]

/-- R45, R154: the hex form of a digest is 64 lower-case hex digits and reads back as its 256 bits;
the byte form is 32 bytes whose bits, most significant first, are those bits. -/
def Obligations.DigestHexText : Prop :=
  ∀ v : Vector Word32 8, (digestBits v).length = 256 ∧
    ∃ cs, bitsToHex (digestBits v) = some cs ∧ cs.length = 64 ∧
      (∀ c ∈ cs, (0x30 ≤ c ∧ c ≤ 0x39) ∨ (0x61 ≤ c ∧ c ≤ 0x66)) ∧
      hexToBits cs = some (digestBits v) ∧
      (digestBytes v).length = 32 ∧ (∀ b ∈ digestBytes v, b < 256) ∧
      toBits ((digestBytes v).map (Fin.ofNat 256)) = digestBits v

/-! ### Dynamic engine -/

/-- R161: a DINIT whose payload is within the limits (R69, R180: the message below 2^64 bits and
within the capacity, log entry 10, and the index below 2^64) and whose checks pass completes, with or
without a prior state, and constructs the context from its operands; the error log and the datapath
are unchanged. -/
def Obligations.InitConstructsContext : Prop :=
  ∀ (s : State) (p : List FieldBit) (idx : Nat) (prior : Option (Vector Word32 8)),
    s.payload = ofInit { message := p, index := idx, prior := prior } → idx < 2 ^ 64 →
    p.length < 2 ^ 64 → p.length ≤ s.maxMsgBits → p.length % 512 = 0 → (prior = none → idx = 0) →
    idx < p.length / 512 →
    ∃ t, exec (.dInit prior.isSome) s = .next t ∧
      t.response = some { status := .ok, payload := [] } ∧
      t.msg = p ∧ t.nblk = p.length / 512 ∧ t.idx = idx ∧
      (∀ st, prior = some st → t.hs = st) ∧
      (prior = none → ∀ i : Fin 8, t.hs[i] = romH i) ∧ t.phase = .initialized ∧
      t.errlog = s.errlog ∧ SameDatapath s t ∧ t.pending = s.pending ∧
      t.maxMsgBits = s.maxMsgBits

/-- R161, R162, R187 with R69, R180: DINIT's errors in their order. A message of 2^64 bits or more or
over the capacity, or an index of 2^64 or more, is an IllegalCommand (the limits are those of log entry
10). Within these limits a length that is not whole blocks is an InvariantViolation; otherwise no prior
state with an index, or an index not below the block count, is a ConfigurationError. The context is
untouched. -/
def Obligations.InitChecksInOrder : Prop :=
  ∀ (s : State) (o : InitOperands), s.payload = ofInit o →
    ((2 ^ 64 ≤ o.message.length ∨ s.maxMsgBits < o.message.length ∨ 2 ^ 64 ≤ o.index) →
      ∃ t, exec (.dInit o.prior.isSome) s = .next t ∧ EndsWithError .illegalCommand s t) ∧
    (o.message.length < 2 ^ 64 → o.message.length ≤ s.maxMsgBits → o.index < 2 ^ 64 →
      (o.message.length % 512 ≠ 0 → ∃ t, exec (.dInit o.prior.isSome) s = .next t ∧
        EndsWithError .invariantViolation s t) ∧
      (o.message.length % 512 = 0 →
        ((o.prior = none ∧ o.index ≠ 0) ∨ o.message.length / 512 ≤ o.index) →
        ∃ t, exec (.dInit o.prior.isSome) s = .next t ∧ EndsWithError .configurationError s t))

/-- R163, R44: with a context and a block left, DSTEP completes: it compresses exactly the 512
elements of MSG that start at `512·IDX`, advances IDX by one, returns the new HS, and leaves MSG,
NBLK and the error log. -/
def Obligations.StepConsumesOneBlock : Prop :=
  ∀ s : State, s.payload = [] → s.phase ≠ .empty → s.idx < s.nblk →
    512 * s.idx + 512 ≤ s.msg.length →
    ∃ (t : State) (b : Vector Word32 16), exec .dStep s = .next t ∧
      (∀ (k : Fin 16) (i : Fin 32), s.msg[512 * s.idx + 32 * k.val + i.val]? = some b[k][i]) ∧
      t.hs = compress s.hs b ∧ t.idx = s.idx + 1 ∧ t.phase = .advanced ∧
      t.response = some { status := .ok, payload := ofWords t.hs } ∧
      t.msg = s.msg ∧ t.nblk = s.nblk ∧ t.errlog = s.errlog ∧ t.pending = s.pending ∧
      t.maxMsgBits = s.maxMsgBits

/-- R164, R165: DSTEP with no context, or at the terminal state, is a ConfigurationError that changes
nothing else. -/
def Obligations.StepRefusedWithoutBlock : Prop :=
  ∀ s : State, s.payload = [] → (s.phase = .empty ∨ s.nblk ≤ s.idx) →
    ∃ t, exec .dStep s = .next t ∧ EndsWithError .configurationError s t

/-- R167, R29: DSTAT completes in every state and returns the STATUS word, with its fields where the
layout puts them and its reserved bits 0, and IDX and NBLK, both 0 while Empty; it writes nothing but
the ports. -/
def Obligations.StatusReported : Prop :=
  ∀ s : State, s.payload = [] →
    ∃ (v : BitVec 32) (t : State), exec .dStat s = .next t ∧
      EndsPure [Item.status32 v, Item.nat (if s.phase = .empty then 0 else s.idx),
        Item.nat (if s.phase = .empty then 0 else s.nblk)] s t ∧
      (v.extractLsb' 0 2).toNat =
        (if s.phase = .empty then 0 else if s.phase = .initialized then 1 else 2) ∧
      (v.getLsbD 2 = true ↔ s.phase ≠ .empty ∧ s.idx = s.nblk) ∧
      v.extractLsb' 3 5 = 0 ∧ v.extractLsb' 8 4 = s.errlog ∧ v.extractLsb' 12 20 = 0

/-- R168: DDROP completes in every state: the context is gone, ERRLOG stays, and in phase Empty
nothing changes at all. -/
def Obligations.DropDiscardsContext : Prop :=
  ∀ s : State, s.payload = [] →
    ∃ t, exec .dDrop s = .next t ∧ t.response = some { status := .ok, payload := [] } ∧
      t.phase = .empty ∧ t.errlog = s.errlog ∧ t.dp = s.dp ∧ t.pending = s.pending ∧
      t.maxMsgBits = s.maxMsgBits ∧
      (s.phase ≠ .empty → t.idx = 0 ∧ t.nblk = 0 ∧ t.msg = []) ∧
      (s.phase = .empty → EndsPure [] s t)

/-- R166, R155: after a DINIT of a message's padding (below 2^64 bits and within the capacity, the
limits DINIT takes: R69, R180, log entry 10) from index 0, the `j`-th of `n` DSTEPs returns
the native engine's state after `j` blocks, and the last returns the native digest. -/
def Obligations.DynamicAgreesWithNative : Prop :=
  ∀ (s : State) (m : List (Fin 256)),
    s.payload = ofInit { message := pad (toBits m), index := 0, prior := none } →
    (pad (toBits m)).length < 2 ^ 64 → (pad (toBits m)).length ≤ s.maxMsgBits →
    ∃ s₁, exec (.dInit false) s = .next s₁ ∧
      (∀ j, 1 ≤ j → j ≤ (pad (toBits m)).length / 512 → ∃ t, dStepTimes j s₁ = .next t ∧
        t.response = some { status := .ok
                            payload := ofWords (foldBlocks (pad (toBits m)) j romHAll) }) ∧
      ∃ t, dStepTimes ((pad (toBits m)).length / 512) s₁ = .next t ∧
        t.response = some { status := .ok, payload := ofWords (native m) } ∧
        t.hs = native m ∧ t.idx = t.nblk

/-- R169: a context reloaded by DINIT from a checkpoint `(p, i, S_i)`, in a block whose capacity
takes the message, gives, DSTEP for DSTEP, the
responses the original context gives. -/
def Obligations.ResumeFromCheckpoint : Prop :=
  ∀ s s₀ : State, StateInv s → s.payload = [] → 0 < s.idx → s.idx < s.nblk →
    s₀.payload = ofInit { message := s.msg, index := s.idx, prior := some s.hs } →
    s.msg.length ≤ s₀.maxMsgBits →
    ∃ s₁, exec (.dInit true) s₀ = .next s₁ ∧
      ∀ k, 1 ≤ k → k ≤ s.nblk - s.idx → ∃ t t₁, dStepTimes k s = .next t ∧
        dStepTimes k s₁ = .next t₁ ∧ t₁.response = t.response ∧ t₁.hs = t.hs ∧ t₁.idx = t.idx

/-- R165: a context at index `i` accepts exactly `NBLK − i` DSTEPs, each advancing IDX by one with
status OK; the next one is a ConfigurationError. -/
def Obligations.AcceptsExactlyRemainingBlocks : Prop :=
  ∀ s : State, StateInv s → s.payload = [] → s.phase ≠ .empty →
    (∀ k, 1 ≤ k → k ≤ s.nblk - s.idx → ∃ t, dStepTimes k s = .next t ∧ t.idx = s.idx + k ∧
      t.phase = .advanced ∧ t.response = some { status := .ok, payload := ofWords t.hs } ∧
      t.errlog = s.errlog) ∧
    ∃ t u, dStepTimes (s.nblk - s.idx) s = .next t ∧ exec .dStep t = .next u ∧
      EndsWithError .configurationError t u

/-- R165, R16, R17: the state machine of `(PHASE, IDX)`: which command moves it, and where to. -/
def Obligations.ContextStateMachine : Prop :=
  ∀ (i : Instr) (s t : State) (r : Response), exec i s = .next t → t.response = some r →
    (r.status ≠ .ok → t.phase = s.phase ∧ t.idx = s.idx ∧ t.nblk = s.nblk) ∧
    (r.status = .ok →
      match i with
      | .dInit _ => t.phase = .initialized ∧ t.idx < t.nblk
      | .dStep => s.phase ≠ .empty ∧ s.idx < s.nblk ∧ t.phase = .advanced ∧ t.idx = s.idx + 1 ∧
          t.nblk = s.nblk
      | .dDrop => t.phase = .empty ∧ (s.phase ≠ .empty → t.idx = 0 ∧ t.nblk = 0)
      | _ => t.phase = s.phase ∧ t.idx = s.idx ∧ t.nblk = s.nblk)

/-! ### Errors -/

/-- R183: whatever command raises an error, its response has no payload, one ERRLOG bit is set, and
no register of the context or the datapath changes. -/
def Obligations.ErrorsChangeOnlyTheLog : Prop :=
  ∀ (i : Instr) (s t : State) (k : ErrorKind) (out : List Item),
    exec i s = .next t → t.response = some { status := .error k, payload := out } →
    EndsWithError k s t

/-- R186: a command issued again with the same payload in the state its error left gets the same
error. -/
def Obligations.RetryRepeatsError : Prop :=
  ∀ (i : Instr) (s t : State) (k : ErrorKind), exec i s = .next t → EndsWithError k s t →
    ∃ u, exec i { t with payload := s.payload } = .next u ∧
      u.response = some { status := .error k, payload := [] }

/-- R20, R190: no step clears an ERRLOG bit, and a bit is set only by a command that ends with that
error. -/
def Obligations.ErrorLogSticky : Prop :=
  ∀ s t : State, step s = .next t →
    (∀ b, s.errlog.getLsbD b = true → t.errlog.getLsbD b = true) ∧
    (t.errlog ≠ s.errlog → ∃ k, t.response = some { status := .error k, payload := [] } ∧
      t.errlog = s.errlog ||| k.logBit)

/-- R27, R66: the commands of groups 0x0_ to 0x4_ write no register of the context, and no ERRLOG bit
unless they end with an error. -/
def Obligations.PureCommandsKeepContext : Prop :=
  ∀ (i : Instr) (s t : State), pureGroup i = true → exec i s = .next t →
    SameContext s t ∧ t.pending = s.pending ∧
      (t.errlog = s.errlog ∨ ∃ k, EndsWithError k s t)

/-! ### The whole machine -/

/-- R28: what reset leaves, the values the spec gives. -/
def Obligations.ResetState : Prop :=
  State.reset.phase = .empty ∧ State.reset.idx = 0 ∧ State.reset.nblk = 0 ∧
  State.reset.msg = [] ∧ State.reset.errlog = 0 ∧ statusWord State.reset = 0 ∧
  (∀ i : Fin 8, val (romH i) = romHHex[i]) ∧ ∀ t : Fin 64, val (romK t) = romKHex[t]

/-- R16, R18, R28: the invariant holds after reset. Its clauses on the capacity rest on the model's
choice of `MAX_MSG_BITS` (log entry 2). -/
def Obligations.InvariantAtReset : Prop := StateInv State.reset

/-- R16, R18, R19: every step keeps the invariant, from every state that meets it, and never changes
the capacity. -/
def Obligations.InvariantKept : Prop :=
  ∀ s t : State, StateInv s → step s = .next t → StateInv t ∧ t.maxMsgBits = s.maxMsgBits

/-- spec/93 Part 1, last sentence, with R208: from every state that meets the invariant a step never
faults and never refuses, whatever command is presented. -/
def Obligations.EveryCommandAnswered : Prop :=
  ∀ s : State, StateInv s → ∃ t, step s = .next t

/-- R19: TERMINAL holds only in phase Advanced. -/
def Obligations.TerminalOnlyWhenAdvanced : Prop :=
  ∀ s : State, StateInv s → terminal s = true → s.phase = .advanced ∧ s.idx = s.nblk

/-- R21: with no context, no response depends on HS, IDX, NBLK or MSG, and no context a command
constructs does. -/
def Obligations.EmptyContextUnobservable : Prop :=
  ∀ (i : Instr) (s s' : State), s.phase = .empty → s'.phase = .empty → s'.payload = s.payload →
    s'.errlog = s.errlog → s'.maxMsgBits = s.maxMsgBits →
    ∃ t t', exec i s = .next t ∧ exec i s' = .next t' ∧ t'.response = t.response ∧
      t'.errlog = t.errlog ∧ t'.phase = t.phase ∧
      (t.phase ≠ .empty → t'.hs = t.hs ∧ t'.idx = t.idx ∧ t'.nblk = t.nblk ∧ t'.msg = t.msg)

/-- R23, R24, R26: nothing a command answers or leaves in the context depends on what the datapath
registers, or the model's free values, were. HS after a DDROP is unspecified and is left out. -/
def Obligations.DatapathUnobservable : Prop :=
  ∀ (i : Instr) (s : State) (dp : Datapath) (n : Nat),
    (∀ t, exec i s = .next t → ∃ t', exec i { s with dp := dp, free := n } = .next t' ∧
      t'.response = t.response ∧ t'.errlog = t.errlog ∧ t'.phase = t.phase ∧ t'.idx = t.idx ∧
      t'.nblk = t.nblk ∧ t'.msg = t.msg ∧ (t.phase ≠ .empty → t'.hs = t.hs)) ∧
    (∀ r, exec i s = .fault r → exec i { s with dp := dp, free := n } = .fault r)
end

