-- ==== Sys2Proof/Laws/FieldOps.lean ====
section
/-! SUPPORT. The word operations element by element, and what each does to the number a word stands
for (spec/41_field_bit_ops.md, the derived views). -/

namespace Sys2Proof.Machine

theorem fbAnd_eq_one {a b : FieldBit} : fbAnd a b = .one ↔ a = .one ∧ b = .one := by
  cases a <;> cases b <;> simp [fbAnd]

theorem fbXor_eq_one {a b : FieldBit} : fbXor a b = .one ↔ (a = .one) ≠ (b = .one) := by
  cases a <;> cases b <;> simp [fbXor]

theorem fbNot_eq_one {a : FieldBit} : fbNot a = .one ↔ a ≠ .one := by
  cases a <;> simp [fbNot]

@[simp] theorem wAnd_get (x y : Word32) (i : Nat) (h : i < 32) :
    (wAnd x y)[i] = fbAnd x[i] y[i] := by simp [wAnd]

@[simp] theorem wOr_get (x y : Word32) (i : Nat) (h : i < 32) :
    (wOr x y)[i] = fbOr x[i] y[i] := by simp [wOr]

@[simp] theorem wXor_get (x y : Word32) (i : Nat) (h : i < 32) :
    (wXor x y)[i] = fbXor x[i] y[i] := by simp [wXor]

@[simp] theorem wNot_get (x : Word32) (i : Nat) (h : i < 32) :
    (wNot x)[i] = fbNot x[i] := by simp [wNot]

theorem rotr_get (x : Word32) (n i : Nat) (h : i < 32) :
    (rotr x n)[i] = x[(i + (32 - n % 32)) % 32]'(Nat.mod_lt _ (by decide)) := by simp [rotr]

theorem shr_get (x : Word32) (n i : Nat) (h : i < 32) :
    (shr x n)[i] = if i < n then .zero else x[i - n]'(by omega) := by simp [shr]

theorem bitVal_lt (e : FieldBit) : bitVal e < 2 := by cases e <;> simp [bitVal]

@[simp] theorem bitVal_beta {b : Nat} (h : b < 2) : bitVal (beta b) = b := by
  unfold beta; split <;> simp_all [bitVal]; omega

theorem beta_bitVal (e : FieldBit) : beta (bitVal e) = e := by cases e <;> simp [bitVal, beta]

/-- The full adder's arithmetic (R106). -/
theorem fullAdder (a b c : FieldBit) :
    bitVal a + bitVal b + bitVal c = bitVal (fbSum a b c) + 2 * bitVal (fbCarry a b c) := by
  cases a <;> cases b <;> cases c <;> decide

theorem seqVal_lt : ∀ es : List FieldBit, seqVal es < 2 ^ es.length
  | [] => by simp [seqVal]
  | e :: es => by
    have h1 := seqVal_lt es
    have h2 : bitVal e ≤ 1 := Nat.le_of_lt_succ (bitVal_lt e)
    have h3 : bitVal e * 2 ^ es.length ≤ 1 * 2 ^ es.length := Nat.mul_le_mul_right _ h2
    simp only [seqVal, List.length_cons, pow_succ]
    omega

/-- The ripple adds: the sum's elements and the carry out together are the sum of the numbers. -/
theorem ripple_val : ∀ as bs : List FieldBit, as.length = bs.length →
    seqVal (ripple as bs).1 + 2 ^ as.length * bitVal (ripple as bs).2 = seqVal as + seqVal bs
  | [], [], _ => by simp [ripple, seqVal, bitVal]
  | a :: as, b :: bs, h => by
    have hl : as.length = bs.length := by simpa using h
    have ih := ripple_val as bs hl
    have fa := fullAdder a b (ripple as bs).2
    have hr := ripple_length as bs hl
    simp only [ripple, seqVal, hr, List.length_cons, ← hl, pow_succ]
    generalize 2 ^ as.length = P at *
    have fa' : P * (bitVal a + bitVal b + bitVal (ripple as bs).2) =
        P * (bitVal (fbSum a b (ripple as bs).2) + 2 * bitVal (fbCarry a b (ripple as bs).2)) :=
      congrArg (P * ·) fa
    linarith

theorem val_lt (x : Word32) : val x < 2 ^ 32 := by simpa [val] using seqVal_lt x.toList

/-- `val(add2(x,y)) = (val(x) + val(y)) mod 2^32` (R107). -/
theorem val_add2 (x y : Word32) : val (add2 x y) = (val x + val y) % 2 ^ 32 := by
  have h := ripple_val x.toList y.toList (by simp)
  have hl : val (add2 x y) < 2 ^ 32 := val_lt _
  have hv : val (add2 x y) = seqVal (ripple x.toList y.toList).1 := rfl
  simp only [val, Vector.length_toList] at *
  omega

theorem toNum_toNat (x : Word32) : (toNum x).toNat = val x := by
  rw [toNum, BitVec.toNat_ofNat, Nat.mod_eq_of_lt (val_lt x)]

theorem toNum_add2 (x y : Word32) : toNum (add2 x y) = toNum x + toNum y := by
  apply BitVec.eq_of_toNat_eq
  simp [toNum_toNat, BitVec.toNat_add, val_add2]

/-- Bit `j` from the right of the number of a sequence is its element `j` from the end. -/
theorem seqVal_testBit : ∀ (es : List FieldBit) (i : Nat) (h : i < es.length),
    (seqVal es).testBit (es.length - 1 - i) = (es[i] == .one)
  | e :: es, 0, _ => by
    have h1 := seqVal_lt es
    simp only [seqVal, List.length_cons, Nat.add_sub_cancel, Nat.sub_zero, List.getElem_cons_zero]
    cases e <;> simp [bitVal, Nat.testBit_lt_two_pow h1, Nat.testBit_two_pow_add_eq]
  | e :: es, i + 1, h => by
    have hi : i < es.length := by simpa using h
    have ih := seqVal_testBit es i hi
    have he : es.length + 1 - 1 - (i + 1) = es.length - 1 - i := by omega
    simp only [seqVal, List.length_cons, he, List.getElem_cons_succ]
    rw [← ih]
    cases e
    · simp [bitVal]
    · simp only [bitVal, Nat.one_mul]
      rw [Nat.testBit_two_pow_add_gt (by omega)]

/-- Bit `i` from the left of a word's number is its element `i` (R41). -/
@[simp] theorem toNum_getMsbD (x : Word32) (i : Nat) (h : i < 32) :
    (toNum x).getMsbD i = (x[i] == .one) := by
  have h1 := seqVal_testBit x.toList i (by simpa using h)
  simp only [Vector.length_toList, Vector.getElem_toList] at h1
  rw [← h1, BitVec.getMsbD_eq_getLsbD, toNum, BitVec.getLsbD_ofNat, val]
  simp [h]
  omega

/-- Two numbers agree when their bits do, counted from the left. -/
theorem toNum_eq_of_bits {x : Word32} {v : BitVec 32}
    (h : ∀ (i : Nat) (hi : i < 32), (x[i] == .one) = v.getMsbD i) : toNum x = v :=
  BitVec.eq_of_getMsbD_eq fun i hi => by rw [toNum_getMsbD x i hi, h i hi]

theorem toNum_wXor (x y : Word32) : toNum (wXor x y) = toNum x ^^^ toNum y :=
  toNum_eq_of_bits fun i hi => by
    simp only [wXor_get, BitVec.getMsbD_xor, toNum_getMsbD, hi]
    cases x[i] <;> cases y[i] <;> rfl

theorem toNum_wAnd (x y : Word32) : toNum (wAnd x y) = toNum x &&& toNum y :=
  toNum_eq_of_bits fun i hi => by
    simp only [wAnd_get, BitVec.getMsbD_and, toNum_getMsbD, hi]
    cases x[i] <;> cases y[i] <;> rfl

theorem toNum_wNot (x : Word32) : toNum (wNot x) = ~~~ (toNum x) :=
  toNum_eq_of_bits fun i hi => by
    simp only [wNot_get, BitVec.getMsbD_not, toNum_getMsbD, hi]
    cases x[i] <;> rfl

theorem toNum_shr (x : Word32) (n : Nat) : toNum (shr x n) = toNum x >>> n :=
  toNum_eq_of_bits fun i hi => by
    rw [shr_get, BitVec.getMsbD_ushiftRight]
    by_cases h : i < n
    · simp [h, hi]
    · simp [h, hi, show i - n < 32 by omega]

theorem toNum_rotr (x : Word32) (n : Nat) : toNum (rotr x n) = (toNum x).rotateRight n :=
  toNum_eq_of_bits fun i hi => by
    rw [rotr_get, BitVec.getMsbD_rotateRight]
    by_cases h : i < n % 32
    · have e : (i + (32 - n % 32)) % 32 = 32 + i - n % 32 := by omega
      have l : 32 + i - n % 32 < 32 := by omega
      simp only [e, h, hi, if_pos, Nat.mod_eq_of_lt l, toNum_getMsbD x _ l]
      simp
    · have e : (i + (32 - n % 32)) % 32 = i - n % 32 := by omega
      simp [h, hi, e, show i - n % 32 < 32 by omega]

/-- A word is fixed by its number. -/
theorem toNum_injective {x y : Word32} (h : toNum x = toNum y) : x = y := by
  ext i hi
  have h1 := toNum_getMsbD x i hi
  rw [h, toNum_getMsbD y i hi] at h1
  cases hx : x[i] <;> cases hy : y[i] <;> simp_all

theorem val_injective {x y : Word32} (h : val x = val y) : x = y :=
  toNum_injective (by rw [toNum, toNum, h])

/-- `word(v)` stands for `v mod 2^32`. -/
theorem toNum_word (v : Nat) : toNum (word v) = BitVec.ofNat 32 v :=
  toNum_eq_of_bits fun i hi => by
    have h2 : v / 2 ^ (31 - i) % 2 = 0 ∨ v / 2 ^ (31 - i) % 2 = 1 := by omega
    rw [BitVec.getMsbD_eq_getLsbD, BitVec.getLsbD_ofNat, Nat.testBit_eq_decide_div_mod_eq]
    simp only [word, Vector.getElem_ofFn, beta]
    have h3 : 32 - 1 - i < 32 := by omega
    rcases h2 with h2 | h2 <;> simp [h2, hi, h3]

theorem val_word (v : Nat) : val (word v) = v % 2 ^ 32 := by
  rw [← toNum_toNat, toNum_word, BitVec.toNat_ofNat]

@[simp] theorem add32_nil (x : Word32) : add32 x [] = x := rfl

@[simp] theorem add32_cons (x y : Word32) (ys : List Word32) :
    add32 x (y :: ys) = add32 (add2 x y) ys := rfl

end Sys2Proof.Machine
end

