-- ==== Sys2Proof/Laws/Compression.lean ====
section
/-! SUPPORT. The compression function on FieldBits is the compression function on 32-bit numbers
(spec/43_compression.md R141: the values are the same as those of the integer view). -/

namespace Sys2Proof.Machine

@[simp] theorem toNums_get {n : Nat} (v : Vector Word32 n) (i : Nat) (h : i < n) :
    (toNums v)[i] = toNum v[i] := by simp [toNums]

theorem toNums_set {n : Nat} (v : Vector Word32 n) (i : Nat) (h : i < n) (x : Word32) :
    toNums (v.set i x h) = (toNums v).set i (toNum x) h := by
  ext j hj
  simp only [toNums_get, Vector.getElem_set]
  split <;> simp

theorem toNums_injective {n : Nat} {v w : Vector Word32 n} (h : toNums v = toNums w) : v = w := by
  ext1 i hi
  apply toNum_injective
  rw [← toNums_get v i hi, h, toNums_get]

theorem toNum_sSigma0 (x : Word32) : toNum (sSigma0 x) = refS0 (toNum x) := by
  simp [sSigma0, refS0, toNum_wXor, toNum_rotr, toNum_shr]

theorem toNum_sSigma1 (x : Word32) : toNum (sSigma1 x) = refS1 (toNum x) := by
  simp [sSigma1, refS1, toNum_wXor, toNum_rotr, toNum_shr]

theorem toNum_bSigma0 (x : Word32) : toNum (bSigma0 x) = refB0 (toNum x) := by
  simp [bSigma0, refB0, toNum_wXor, toNum_rotr]

theorem toNum_bSigma1 (x : Word32) : toNum (bSigma1 x) = refB1 (toNum x) := by
  simp [bSigma1, refB1, toNum_wXor, toNum_rotr]

theorem toNum_chWord (e f g : Word32) :
    toNum (chWord e f g) = refCh (toNum e) (toNum f) (toNum g) := by
  simp [chWord, refCh, toNum_wXor, toNum_wAnd, toNum_wNot]

theorem toNum_majWord (a b c : Word32) :
    toNum (majWord a b c) = refMaj (toNum a) (toNum b) (toNum c) := by
  simp [majWord, refMaj, toNum_wXor, toNum_wAnd]

theorem toNum_romK (t : Fin 64) : toNum (romK t) = BitVec.ofNat 32 romKHex[t] := toNum_word _

theorem toNum_romH (i : Fin 8) : toNum (romH i) = BitVec.ofNat 32 romHHex[i] := toNum_word _

theorem toNum_zero : toNum Word32.zero = 0 :=
  toNum_eq_of_bits fun i hi => by simp [Word32.zero]

theorem toNums_loadBlock (w : Vector Word32 64) (m : Vector Word32 16) :
    toNums (loadBlock w m) =
      Vector.ofFn fun t : Fin 64 => if h : t.val < 16 then (toNums m)[t.val] else (toNums w)[t] := by
  ext1 i hi
  simp only [toNums_get, loadBlock, Vector.getElem_ofFn, Fin.getElem_fin]
  split <;> rfl

theorem toNum_schedTerm (w : Vector Word32 64) (t : Fin 64) :
    toNum (schedTerm w t) = refTerm (toNums w) t := by
  simp [schedTerm, refTerm, toNum_add2, toNum_sSigma0, toNum_sSigma1]

/-- The schedule before its recurrence runs. -/
theorem toNums_loadBlock_zero (m : Vector Word32 16) :
    (Vector.ofFn fun t : Fin 64 => if h : t.val < 16 then (toNums m)[t.val] else 0) =
      toNums (loadBlock (Vector.replicate 64 Word32.zero) m) := by
  rw [toNums_loadBlock]
  ext1 i hi
  simp only [Vector.getElem_ofFn]
  split
  · rfl
  · simp [toNum_zero]

theorem toNums_schedStep (w : Vector Word32 64) (t : Fin 64) :
    toNums (schedStep w t) = (toNums w).set t.val (refTerm (toNums w) t) t.isLt := by
  rw [schedStep, toNums_set, toNum_schedTerm]

theorem toNums_schedule (m : Vector Word32 16) : toNums (schedule m) = refSchedule (toNums m) := by
  rw [refSchedule, toNums_loadBlock_zero, schedule]
  exact (List.foldl_hom toNums fun w t => (toNums_schedStep w t).symm).symm

theorem toNum_temp1 (t : Fin 64) (wr : Vector Word32 8) (wt : Word32) :
    toNum (temp1 t wr wt) = toNum wr[7] + refB1 (toNum wr[4]) +
      refCh (toNum wr[4]) (toNum wr[5]) (toNum wr[6]) + BitVec.ofNat 32 romKHex[t] + toNum wt := by
  simp [temp1, toNum_add2, toNum_bSigma1, toNum_chWord, toNum_romK]

theorem toNum_temp2 (wr : Vector Word32 8) :
    toNum (temp2 wr) =
      refB0 (toNum wr[0]) + refMaj (toNum wr[0]) (toNum wr[1]) (toNum wr[2]) := by
  simp [temp2, toNum_add2, toNum_bSigma0, toNum_majWord]

theorem toNums_roundStep (t : Fin 64) (wr : Vector Word32 8) (wt : Word32) :
    toNums (roundStep t wr wt) = refRound t (toNums wr) (toNum wt) := by
  simp only [roundStep, refRound]
  ext1 i hi
  simp only [toNums_get]
  match i, hi with
  | 0, _ => simp [toNum_add2, toNum_temp1, toNum_temp2]
  | 1, _ => simp
  | 2, _ => simp
  | 3, _ => simp
  | 4, _ => simp [toNum_add2, toNum_temp1]
  | 5, _ => simp
  | 6, _ => simp
  | 7, _ => simp

/-- The compression function is the reference's on the numbers the words stand for. -/
theorem toNums_compress (st : Vector Word32 8) (m : Vector Word32 16) :
    toNums (compress st m) = refCompress (toNums st) (toNums m) := by
  have h : toNums ((List.finRange 64).foldl (fun wr t => roundStep t wr (schedule m)[t]) st) =
      (List.finRange 64).foldl (fun wr t => refRound t wr (refSchedule (toNums m))[t])
        (toNums st) := by
    rw [← List.foldl_hom (f := toNums)
      (g₂ := fun wr t => refRound t wr (refSchedule (toNums m))[t])]
    intro wr t
    rw [toNums_roundStep, ← toNums_schedule]
    simp
  simp only [compress, refCompress, ← h]
  ext1 i hi
  simp [finalAdd, toNum_add2]

end Sys2Proof.Machine
end

