-- ==== Sys2Proof/Laws/Operands.lean ====
section
/-! SUPPORT. Each operand form accepts exactly the payloads of its shape: what a meaning reads from
the port is what the host presented (spec/30_encoding.md R69). -/

namespace Sys2Proof.Machine

theorem asBit_eq {i : Item} {e : FieldBit} : i.asBit = some e ↔ i = .bit e := by
  cases i <;> simp [Item.asBit]

theorem asChar_eq {i : Item} {c : Nat} : i.asChar = some c ↔ i = .char c := by
  cases i <;> simp [Item.asChar]

theorem asByte_eq {i : Item} {v : Fin 256} : i.asByte = some v ↔ i = .byte v.val := by
  cases i <;> simp only [Item.asByte, reduceCtorEq]
  rename_i n
  constructor
  · intro h
    split at h
    · cases h; rfl
    · cases h
  · intro h
    cases h
    simp

theorem asWord_eq {i : Item} {x : Word32} : i.asWord = some x ↔ i = Item.ofWord x := by
  cases i <;> simp only [Item.asWord, Item.ofWord, reduceCtorEq]
  rename_i es
  constructor
  · intro h
    split at h
    · cases h; rfl
    · cases h
  · intro h
    cases h
    simp [Vector.toList]

/-- A list of items reads as the list whose items they are, and only so. -/
theorem collect_eq_some {α : Type} {f : Item → Option α} {g : α → Item}
    (hfg : ∀ i a, f i = some a ↔ i = g a) :
    ∀ (p : List Item) (as : List α), collect f p = some as ↔ p = as.map g
  | [], as => by cases as <;> simp [collect]
  | i :: is, as => by
    cases as with
    | nil => simp only [collect]; cases f i <;> cases collect f is <;> simp
    | cons a as =>
      have ih := collect_eq_some hfg is as
      have h0 := hfg i a
      simp only [collect, List.map_cons, List.cons.injEq, ← h0, ← ih]
      cases f i <;> cases collect f is <;> simp

theorem bitsOf_eq {p : List Item} {es : List FieldBit} : bitsOf p = some es ↔ p = ofBits es :=
  collect_eq_some (fun _ _ => asBit_eq) p es

theorem charsOf_eq {p : List Item} {cs : List Nat} : charsOf p = some cs ↔ p = ofChars cs :=
  collect_eq_some (fun _ _ => asChar_eq) p cs

theorem bytesOf_eq {p : List Item} {m : List (Fin 256)} : bytesOf p = some m ↔ p = ofBytes m :=
  collect_eq_some (f := Item.asByte) (g := fun b : Fin 256 => Item.byte b.val)
    (fun _ _ => asByte_eq) p m

theorem wordsOf_eq {k : Nat} {p : List Item} {v : Vector Word32 k} :
    wordsOf k p = some v ↔ p = ofWords v := by
  have h := collect_eq_some (fun _ _ => asWord_eq) p
  unfold wordsOf ofWords
  rw [← h v.toList]
  cases hc : collect Item.asWord p with
  | none => simp
  | some ws =>
    simp only [Option.some.injEq]
    constructor
    · intro e
      split at e
      · cases e; rfl
      · cases e
    · intro e
      subst e
      simp [Vector.toList]

theorem noneOf_eq {p : List Item} : noneOf p = true ↔ p = [] := by cases p <;> simp [noneOf]

@[simp] theorem bitsOf_ofBits (es : List FieldBit) : bitsOf (ofBits es) = some es := bitsOf_eq.2 rfl

@[simp] theorem charsOf_ofChars (cs : List Nat) : charsOf (ofChars cs) = some cs := charsOf_eq.2 rfl

@[simp] theorem bytesOf_ofBytes (m : List (Fin 256)) : bytesOf (ofBytes m) = some m :=
  bytesOf_eq.2 rfl

@[simp] theorem wordsOf_ofWords {k : Nat} (v : Vector Word32 k) : wordsOf k (ofWords v) = some v :=
  wordsOf_eq.2 rfl

@[simp] theorem noneOf_nil : noneOf [] = true := rfl

/-- What follows DINIT's bits, read: the natural and the prior state exactly when `P = 1`. -/
theorem initTail_eq {p : Bool} {m : List FieldBit} {rest : List Item} {o : InitOperands} :
    initTail p m rest = some o ↔
      o.message = m ∧ o.index < 2 ^ 64 ∧ o.prior.isSome = p ∧
        rest = Item.nat o.index :: (match o.prior with | some ws => ofWords ws | none => []) := by
  obtain ⟨om, oi, op⟩ := o
  cases rest with
  | nil => simp [initTail]
  | cons i rest =>
    cases i with
    | nat n =>
      cases p with
      | true =>
        cases hw : wordsOf 8 rest with
        | none =>
          have hn : ∀ ws : Vector Word32 8, rest ≠ ofWords ws := fun ws e => by
            rw [wordsOf_eq.2 e] at hw; cases hw
          cases op with
          | none => simp [initTail, hw]
          | some ws => simp [initTail, hw, hn ws]
        | some ws =>
          have he := wordsOf_eq.1 hw
          subst he
          cases op with
          | none => simp only [initTail, wordsOf_ofWords]; split <;> simp
          | some ws' =>
            have hi : (ofWords ws = ofWords ws') ↔ ws = ws' := by
              rw [← wordsOf_eq, wordsOf_ofWords, Option.some.injEq]
            simp only [initTail, wordsOf_ofWords]
            by_cases h : n < 2 ^ 64
            · simp only [h, if_true, Option.some.injEq, InitOperands.mk.injEq, Option.isSome_some,
                List.cons.injEq, Item.nat.injEq, hi, true_and]
              constructor
              · rintro ⟨rfl, rfl, rfl⟩; exact ⟨rfl, h, rfl, rfl⟩
              · rintro ⟨rfl, -, rfl, rfl⟩; exact ⟨rfl, rfl, rfl⟩
            · simp only [h, if_false, reduceCtorEq, List.cons.injEq, Item.nat.injEq, false_iff]
              rintro ⟨-, h', -, rfl, -⟩
              exact h h'
      | false =>
        cases op with
        | some ws => simp only [initTail]; split <;> [split; skip] <;> simp
        | none =>
          cases hr : noneOf rest with
          | false =>
            have hn : rest ≠ [] := fun e => by rw [e] at hr; cases hr
            simp [initTail, hr, hn]
          | true =>
            rw [noneOf_eq] at hr
            subst hr
            simp only [initTail, noneOf_nil, if_true]
            by_cases h : n < 2 ^ 64
            · simp only [h, if_true, Option.some.injEq, InitOperands.mk.injEq, List.cons.injEq,
                Item.nat.injEq, and_true, Option.isSome_none, true_and]
              constructor
              · rintro ⟨rfl, rfl⟩; exact ⟨rfl, h, rfl⟩
              · rintro ⟨rfl, -, rfl⟩; exact ⟨rfl, rfl⟩
            · simp only [h, if_false, reduceCtorEq, List.cons.injEq, Item.nat.injEq, false_iff]
              rintro ⟨-, h', -, rfl, -⟩
              exact h h'
    | bit e => simp [initTail]
    | word es => simp [initTail]
    | byte v => simp [initTail]
    | char c => simp [initTail]
    | status32 v => simp [initTail]

theorem initOf_bits (p : Bool) (rest : List Item) :
    ∀ (es acc : List FieldBit), initOf p acc (ofBits es ++ rest) = initOf p (es.reverse ++ acc) rest
  | [], _ => rfl
  | e :: es, acc => by
    have ih := initOf_bits p rest es (e :: acc)
    simpa [ofBits, initOf] using ih

/-- DINIT's payload reads as its operands, and only so (R161, R69). -/
theorem initOf_eq {p : Bool} {payload : List Item} {o : InitOperands} :
    initOf p [] payload = some o ↔
      payload = ofInit o ∧ o.index < 2 ^ 64 ∧ o.prior.isSome = p := by
  have key : ∀ (q : List Item) (acc : List FieldBit), initOf p acc q = some o ↔
      ∃ es, o.message = acc.reverse ++ es ∧ o.index < 2 ^ 64 ∧ o.prior.isSome = p ∧
        q = ofBits es ++ Item.nat o.index ::
          (match o.prior with | some ws => ofWords ws | none => []) := by
    intro q
    induction q with
    | nil =>
      intro acc
      simp only [initOf, initTail, reduceCtorEq, false_iff]
      rintro ⟨es, -, -, -, h⟩
      cases es <;> simp [ofBits] at h
    | cons i q ih =>
      intro acc
      by_cases hb : ∃ e, i = .bit e
      · obtain ⟨e, rfl⟩ := hb
        rw [initOf, ih (e :: acc)]
        constructor
        · rintro ⟨es, h1, h2, h3, rfl⟩
          exact ⟨e :: es, by simpa using h1, h2, h3, rfl⟩
        · rintro ⟨es, h1, h2, h3, h4⟩
          cases es with
          | nil => simp [ofBits] at h4
          | cons e' es =>
            simp only [ofBits, List.map_cons, List.cons_append, List.cons.injEq,
              Item.bit.injEq] at h4
            obtain ⟨rfl, h4⟩ := h4
            exact ⟨es, by simpa using h1, h2, h3, h4⟩
      · have hi : initOf p acc (i :: q) = initTail p acc.reverse (i :: q) := by
          cases i <;> first | rfl | exact absurd ⟨_, rfl⟩ hb
        rw [hi, initTail_eq]
        constructor
        · rintro ⟨h1, h2, h3, h4⟩
          exact ⟨[], by simpa using h1, h2, h3, by simpa [ofBits] using h4⟩
        · rintro ⟨es, h1, h2, h3, h4⟩
          cases es with
          | nil => exact ⟨by simpa using h1, h2, h3, by simpa [ofBits] using h4⟩
          | cons e es =>
            simp only [ofBits, List.map_cons, List.cons_append, List.cons.injEq] at h4
            exact absurd ⟨e, h4.1⟩ hb
  rw [key payload []]
  simp only [ofInit, List.reverse_nil, List.nil_append]
  constructor
  · rintro ⟨es, rfl, h2, h3, h4⟩; exact ⟨h4, h2, h3⟩
  · rintro ⟨h1, h2, h3⟩; exact ⟨o.message, rfl, h2, h3, h1⟩

/-- A command on `k` words either reads them or is illegal (R68 d). -/
theorem onWords_cases (k : Nat) (s : State) (f : Vector Word32 k → Result) :
    (∃ v, s.payload = ofWords v ∧ onWords k s f = f v) ∨
      ((∀ v : Vector Word32 k, s.payload ≠ ofWords v) ∧ onWords k s f = fail s .illegalCommand) := by
  unfold onWords
  cases h : wordsOf k s.payload with
  | none =>
    refine Or.inr ⟨fun v hv => ?_, rfl⟩
    rw [wordsOf_eq.2 hv] at h
    cases h
  | some v => exact Or.inl ⟨v, wordsOf_eq.1 h, rfl⟩

/-- A command on `k` words that are presented. -/
theorem onWords_of {k : Nat} {s : State} {v : Vector Word32 k} (f : Vector Word32 k → Result)
    (h : s.payload = ofWords v) : onWords k s f = f v := by
  simp [onWords, h]

/-- A command with no payload either runs or is illegal (R68 d). -/
theorem onNone_cases (s : State) (r : Result) :
    (s.payload = [] ∧ onNone s r = r) ∨
      (s.payload ≠ [] ∧ onNone s r = fail s .illegalCommand) := by
  unfold onNone
  cases h : s.payload <;> simp [noneOf]

/-- A command with no payload presented. -/
theorem onNone_of {s : State} (r : Result) (h : s.payload = []) : onNone s r = r := by
  simp [onNone, h]

/-- How the padded length comes out (R81): `L + 65` and the zeros fill whole blocks. -/
theorem paddedLength_mod (L : Nat) : paddedLength L % 512 = 0 := by
  unfold paddedLength padZeros; omega

/-- A payload within the limits of R69 and R180. -/
theorem payloadFits_eq {cap n : Nat} : payloadFits cap n = true ↔ n < 2 ^ 64 ∧ n ≤ cap := by
  simp [payloadFits]

theorem padZeros_lt (L : Nat) : padZeros L < 512 := Nat.mod_lt _ (by decide)

end Sys2Proof.Machine
end

