-- ==== Sys2Proof/Laws/State.lean ====
section
/-! SUPPORT. One lemma per field per state update: no later proof unfolds a record update. -/

namespace Sys2Proof.Machine

/-! Returning a response writes the two ports only. -/

@[simp] theorem State.respond_hs (s : State) (st : Status) (out : List Item) :
    (s.respond st out).hs = s.hs := rfl

@[simp] theorem State.respond_idx (s : State) (st : Status) (out : List Item) :
    (s.respond st out).idx = s.idx := rfl

@[simp] theorem State.respond_nblk (s : State) (st : Status) (out : List Item) :
    (s.respond st out).nblk = s.nblk := rfl

@[simp] theorem State.respond_msg (s : State) (st : Status) (out : List Item) :
    (s.respond st out).msg = s.msg := rfl

@[simp] theorem State.respond_phase (s : State) (st : Status) (out : List Item) :
    (s.respond st out).phase = s.phase := rfl

@[simp] theorem State.respond_errlog (s : State) (st : Status) (out : List Item) :
    (s.respond st out).errlog = s.errlog := rfl

@[simp] theorem State.respond_dp (s : State) (st : Status) (out : List Item) :
    (s.respond st out).dp = s.dp := rfl

@[simp] theorem State.respond_pending (s : State) (st : Status) (out : List Item) :
    (s.respond st out).pending = s.pending := rfl

@[simp] theorem State.respond_payload (s : State) (st : Status) (out : List Item) :
    (s.respond st out).payload = [] := rfl

@[simp] theorem State.respond_response (s : State) (st : Status) (out : List Item) :
    (s.respond st out).response = some { status := st, payload := out } := rfl

@[simp] theorem State.respond_maxMsgBits (s : State) (st : Status) (out : List Item) :
    (s.respond st out).maxMsgBits = s.maxMsgBits := rfl

@[simp] theorem State.respond_free (s : State) (st : Status) (out : List Item) :
    (s.respond st out).free = s.free := rfl

/-! Raising an error writes the two ports and one ERRLOG bit (R183). -/

@[simp] theorem State.raise_hs (s : State) (k : ErrorKind) :
    (s.raise k).hs = s.hs := rfl

@[simp] theorem State.raise_idx (s : State) (k : ErrorKind) :
    (s.raise k).idx = s.idx := rfl

@[simp] theorem State.raise_nblk (s : State) (k : ErrorKind) :
    (s.raise k).nblk = s.nblk := rfl

@[simp] theorem State.raise_msg (s : State) (k : ErrorKind) :
    (s.raise k).msg = s.msg := rfl

@[simp] theorem State.raise_phase (s : State) (k : ErrorKind) :
    (s.raise k).phase = s.phase := rfl

@[simp] theorem State.raise_errlog (s : State) (k : ErrorKind) :
    (s.raise k).errlog = s.errlog ||| k.logBit := rfl

@[simp] theorem State.raise_dp (s : State) (k : ErrorKind) :
    (s.raise k).dp = s.dp := rfl

@[simp] theorem State.raise_pending (s : State) (k : ErrorKind) :
    (s.raise k).pending = s.pending := rfl

@[simp] theorem State.raise_payload (s : State) (k : ErrorKind) :
    (s.raise k).payload = [] := rfl

@[simp] theorem State.raise_response (s : State) (k : ErrorKind) :
    (s.raise k).response = some { status := .error k, payload := [] } := rfl

@[simp] theorem State.raise_maxMsgBits (s : State) (k : ErrorKind) :
    (s.raise k).maxMsgBits = s.maxMsgBits := rfl

@[simp] theorem State.raise_free (s : State) (k : ErrorKind) :
    (s.raise k).free = s.free := rfl

/-! The datapath registers take free values; nothing else changes. -/

@[simp] theorem State.releaseDatapath_hs (s : State) :
    s.releaseDatapath.hs = s.hs := rfl

@[simp] theorem State.releaseDatapath_idx (s : State) :
    s.releaseDatapath.idx = s.idx := rfl

@[simp] theorem State.releaseDatapath_nblk (s : State) :
    s.releaseDatapath.nblk = s.nblk := rfl

@[simp] theorem State.releaseDatapath_msg (s : State) :
    s.releaseDatapath.msg = s.msg := rfl

@[simp] theorem State.releaseDatapath_phase (s : State) :
    s.releaseDatapath.phase = s.phase := rfl

@[simp] theorem State.releaseDatapath_errlog (s : State) :
    s.releaseDatapath.errlog = s.errlog := rfl

@[simp] theorem State.releaseDatapath_dp (s : State) :
    s.releaseDatapath.dp = { wr := Config.freeWr s.free, w := Config.freeW s.free, t := Config.freeT s.free } := rfl

@[simp] theorem State.releaseDatapath_pending (s : State) :
    s.releaseDatapath.pending = s.pending := rfl

@[simp] theorem State.releaseDatapath_payload (s : State) :
    s.releaseDatapath.payload = s.payload := rfl

@[simp] theorem State.releaseDatapath_response (s : State) :
    s.releaseDatapath.response = s.response := rfl

@[simp] theorem State.releaseDatapath_maxMsgBits (s : State) :
    s.releaseDatapath.maxMsgBits = s.maxMsgBits := rfl

@[simp] theorem State.releaseDatapath_free (s : State) :
    s.releaseDatapath.free = s.free + 1 := rfl

/-! `HS` takes a free value; nothing else changes. -/

@[simp] theorem State.releaseHs_hs (s : State) :
    s.releaseHs.hs = Config.freeHs s.free := rfl

@[simp] theorem State.releaseHs_idx (s : State) :
    s.releaseHs.idx = s.idx := rfl

@[simp] theorem State.releaseHs_nblk (s : State) :
    s.releaseHs.nblk = s.nblk := rfl

@[simp] theorem State.releaseHs_msg (s : State) :
    s.releaseHs.msg = s.msg := rfl

@[simp] theorem State.releaseHs_phase (s : State) :
    s.releaseHs.phase = s.phase := rfl

@[simp] theorem State.releaseHs_errlog (s : State) :
    s.releaseHs.errlog = s.errlog := rfl

@[simp] theorem State.releaseHs_dp (s : State) :
    s.releaseHs.dp = s.dp := rfl

@[simp] theorem State.releaseHs_pending (s : State) :
    s.releaseHs.pending = s.pending := rfl

@[simp] theorem State.releaseHs_payload (s : State) :
    s.releaseHs.payload = s.payload := rfl

@[simp] theorem State.releaseHs_response (s : State) :
    s.releaseHs.response = s.response := rfl

@[simp] theorem State.releaseHs_maxMsgBits (s : State) :
    s.releaseHs.maxMsgBits = s.maxMsgBits := rfl

@[simp] theorem State.releaseHs_free (s : State) :
    s.releaseHs.free = s.free + 1 := rfl

/-! A successful DINIT writes the context (R161). -/

@[simp] theorem initContext_idx (o : InitOperands) (s : State) :
    (initContext o s).idx = o.index := rfl

@[simp] theorem initContext_nblk (o : InitOperands) (s : State) :
    (initContext o s).nblk = o.message.length / 512 := rfl

@[simp] theorem initContext_msg (o : InitOperands) (s : State) :
    (initContext o s).msg = o.message := rfl

@[simp] theorem initContext_phase (o : InitOperands) (s : State) :
    (initContext o s).phase = .initialized := rfl

@[simp] theorem initContext_errlog (o : InitOperands) (s : State) :
    (initContext o s).errlog = s.errlog := rfl

@[simp] theorem initContext_dp (o : InitOperands) (s : State) :
    (initContext o s).dp = s.dp := rfl

@[simp] theorem initContext_pending (o : InitOperands) (s : State) :
    (initContext o s).pending = s.pending := rfl

@[simp] theorem initContext_payload (o : InitOperands) (s : State) :
    (initContext o s).payload = s.payload := rfl

@[simp] theorem initContext_response (o : InitOperands) (s : State) :
    (initContext o s).response = s.response := rfl

@[simp] theorem initContext_maxMsgBits (o : InitOperands) (s : State) :
    (initContext o s).maxMsgBits = s.maxMsgBits := rfl

@[simp] theorem initContext_free (o : InitOperands) (s : State) :
    (initContext o s).free = s.free := rfl

/-! A successful DSTEP writes HS, IDX and PHASE (R163). -/

@[simp] theorem advance_hs (m : Vector Word32 16) (s : State) :
    (advance m s).hs = compress s.hs m := rfl

@[simp] theorem advance_idx (m : Vector Word32 16) (s : State) :
    (advance m s).idx = s.idx + 1 := rfl

@[simp] theorem advance_nblk (m : Vector Word32 16) (s : State) :
    (advance m s).nblk = s.nblk := rfl

@[simp] theorem advance_msg (m : Vector Word32 16) (s : State) :
    (advance m s).msg = s.msg := rfl

@[simp] theorem advance_phase (m : Vector Word32 16) (s : State) :
    (advance m s).phase = .advanced := rfl

@[simp] theorem advance_errlog (m : Vector Word32 16) (s : State) :
    (advance m s).errlog = s.errlog := rfl

@[simp] theorem advance_dp (m : Vector Word32 16) (s : State) :
    (advance m s).dp = s.dp := rfl

@[simp] theorem advance_pending (m : Vector Word32 16) (s : State) :
    (advance m s).pending = s.pending := rfl

@[simp] theorem advance_payload (m : Vector Word32 16) (s : State) :
    (advance m s).payload = s.payload := rfl

@[simp] theorem advance_response (m : Vector Word32 16) (s : State) :
    (advance m s).response = s.response := rfl

@[simp] theorem advance_maxMsgBits (m : Vector Word32 16) (s : State) :
    (advance m s).maxMsgBits = s.maxMsgBits := rfl

@[simp] theorem advance_free (m : Vector Word32 16) (s : State) :
    (advance m s).free = s.free := rfl

/-- `HS` after a DINIT with a prior state. -/
@[simp] theorem initContext_hs_some (p : List FieldBit) (n : Nat) (prior : Vector Word32 8)
    (s : State) : (initContext { message := p, index := n, prior := some prior } s).hs = prior := rfl

/-- `HS` after a DINIT with no prior state. -/
@[simp] theorem initContext_hs_none (p : List FieldBit) (n : Nat) (s : State) :
    (initContext { message := p, index := n, prior := none } s).hs = romHAll := rfl

/-- DDROP with no context changes nothing (R168). -/
theorem dropContext_empty {s : State} (h : s.phase = .empty) : dropContext s = s := by
  simp [dropContext, h]

/-- DDROP with a context discards it (R168). -/
theorem dropContext_of_ne {s : State} (h : s.phase ≠ .empty) :
    dropContext s = { s with phase := .empty, idx := 0, nblk := 0, msg := [] }.releaseHs := by
  cases hp : s.phase <;> simp_all [dropContext]

@[simp] theorem dropContext_errlog (s : State) : (dropContext s).errlog = s.errlog := by
  cases h : s.phase <;> simp [dropContext, h]

@[simp] theorem dropContext_dp (s : State) : (dropContext s).dp = s.dp := by
  cases h : s.phase <;> simp [dropContext, h]

@[simp] theorem dropContext_pending (s : State) : (dropContext s).pending = s.pending := by
  cases h : s.phase <;> simp [dropContext, h]

@[simp] theorem dropContext_payload (s : State) : (dropContext s).payload = s.payload := by
  cases h : s.phase <;> simp [dropContext, h]

@[simp] theorem dropContext_response (s : State) : (dropContext s).response = s.response := by
  cases h : s.phase <;> simp [dropContext, h]

@[simp] theorem dropContext_maxMsgBits (s : State) : (dropContext s).maxMsgBits = s.maxMsgBits := by
  cases h : s.phase <;> simp [dropContext, h]

@[simp] theorem dropContext_phase (s : State) : (dropContext s).phase = .empty := by
  cases h : s.phase <;> simp [dropContext, h]

end Sys2Proof.Machine
end

