-- ==== Sys2Proof/Laws/Exec.lean ====
section
/-! SUPPORT. What a command can do, said once: `exec_ends` lists every next state of `exec`, and
`exec_next` and `isNext_dStep` say that a command always has one, but for a DSTEP whose block does
not lie inside MSG. The invariants and the whole-machine rules are case analyses over the two. -/

namespace Sys2Proof.Machine

/-- Every way a command can end. -/
inductive Ends (s : State) : State → Prop where
  /-- a pure result: only the ports are written -/
  | pure (out : List Item) : Ends s (s.respond .ok out)
  /-- a result computed on the datapath, whose registers hold no value afterwards -/
  | computed (out : List Item) : Ends s (s.releaseDatapath.respond .ok out)
  /-- an error (R183) -/
  | error (k : ErrorKind) : Ends s (s.raise k)
  /-- a successful DINIT (R161) -/
  | init (o : InitOperands) (lt : o.message.length < 2 ^ 64)
      (cap : o.message.length ≤ s.maxMsgBits) (ok : initError o = none) :
      Ends s ((initContext o s).respond .ok [])
  /-- a successful DSTEP (R163) -/
  | stepped (ctx : s.phase ≠ .empty) (lt : s.idx < s.nblk)
      (inside : 512 * s.idx + 512 ≤ s.msg.length) :
      Ends s ((advance (blockAt s.msg s.idx) s).releaseDatapath.respond .ok
        (ofWords (compress s.hs (blockAt s.msg s.idx))))
  /-- DDROP (R168) -/
  | dropped : Ends s ((dropContext s).respond .ok [])

theorem ends_complete {s t : State} {out : List Item} (h : complete s out = .next t) : Ends s t := by
  cases h; exact .pure out

theorem ends_computed {s t : State} {out : List Item}
    (h : complete s.releaseDatapath out = .next t) : Ends s t := by
  cases h; exact .computed out

theorem ends_fail {s t : State} {k : ErrorKind} (h : fail s k = .next t) : Ends s t := by
  cases h; exact .error k

theorem ends_onWords {k : Nat} {s t : State} {f : Vector Word32 k → Result}
    (hf : ∀ v, f v = .next t → Ends s t) (h : onWords k s f = .next t) : Ends s t := by
  rcases onWords_cases k s f with ⟨v, -, e⟩ | ⟨-, e⟩
  · exact hf v (e ▸ h)
  · exact ends_fail (e ▸ h)

theorem ends_onNone {s t : State} {r : Result} (hr : r = .next t → Ends s t)
    (h : onNone s r = .next t) : Ends s t := by
  rcases onNone_cases s r with ⟨-, e⟩ | ⟨-, e⟩
  · exact hr (e ▸ h)
  · exact ends_fail (e ▸ h)

theorem readBlock_eq (m : Memory) (j : Nat) :
    Memory.readBlock m j = if 512 * j + 512 ≤ m.length then some (blockAt m j) else none := rfl

theorem ends_toBits {s t : State} (h : execToBits s = .next t) : Ends s t := by
  unfold execToBits at h
  split at h
  · exact ends_fail h
  · split at h
    · exact ends_complete h
    · exact ends_fail h

theorem ends_hexToBits {s t : State} (h : execHexToBits s = .next t) : Ends s t := by
  unfold execHexToBits at h
  split at h
  · exact ends_fail h
  · split at h
    · split at h
      · exact ends_fail h
      · exact ends_complete h
    · exact ends_fail h

theorem ends_bitsToHex {s t : State} (h : execBitsToHex s = .next t) : Ends s t := by
  unfold execBitsToHex at h
  split at h
  · exact ends_fail h
  · split at h
    · split at h
      · exact ends_fail h
      · exact ends_complete h
    · exact ends_fail h

theorem ends_pad {s t : State} (h : execPad s = .next t) : Ends s t := by
  unfold execPad at h
  split at h
  · exact ends_fail h
  · split at h
    · exact ends_complete h
    · exact ends_fail h

theorem ends_fAdd {k : Fin 8} {s t : State} (h : execFAdd k s = .next t) : Ends s t := by
  unfold execFAdd at h
  split at h
  · exact ends_onWords (fun _ => ends_complete) h
  · exact ends_fail h

theorem ends_hash {s t : State} (h : execHash s = .next t) : Ends s t := by
  unfold execHash at h
  split at h
  · exact ends_fail h
  · split at h
    · exact ends_computed h
    · exact ends_fail h

theorem ends_hashX {s t : State} (h : execHashX s = .next t) : Ends s t := by
  unfold execHashX at h
  split at h
  · exact ends_fail h
  · split at h
    · split at h
      · exact ends_fail h
      · exact ends_computed h
    · exact ends_fail h

theorem ends_dInit {p : Bool} {s t : State} (h : execDInit p s = .next t) : Ends s t := by
  unfold execDInit at h
  split at h
  · exact ends_fail h
  · rename_i o _
    split at h
    · rename_i hc
      split at h
      · exact ends_fail h
      · rename_i he
        cases h
        obtain ⟨hl, hc⟩ := payloadFits_eq.1 hc
        exact .init o hl hc he
    · exact ends_fail h

theorem ends_consumeBlock {s t : State} (hp : s.phase ≠ .empty) (h : consumeBlock s = .next t) :
    Ends s t := by
  unfold consumeBlock at h
  split at h
  · exact ends_fail h
  · rename_i hlt
    rw [readBlock_eq] at h
    split at h
    · cases h
    · rename_i m hm
      split at hm
      · cases hm
        cases h
        exact .stepped hp (by omega) (by assumption)
      · cases hm

theorem ends_dStep {s t : State} (h : execDStep s = .next t) : Ends s t := by
  refine ends_onNone (fun h => ?_) h
  cases hp : s.phase with
  | empty => rw [hp] at h; exact ends_fail h
  | initialized => rw [hp] at h; exact ends_consumeBlock (by simp [hp]) h
  | advanced => rw [hp] at h; exact ends_consumeBlock (by simp [hp]) h

theorem ends_dDrop {s t : State} (h : execDDrop s = .next t) : Ends s t := by
  refine ends_onNone (fun h => ?_) h
  cases h
  exact .dropped

/-- Every next state of a command is one of `Ends`. -/
theorem exec_ends {i : Instr} {s t : State} (h : exec i s = .next t) : Ends s t := by
  cases i with
  | toBits => exact ends_toBits h
  | hexToBits => exact ends_hexToBits h
  | bitsToHex => exact ends_bitsToHex h
  | pad => exact ends_pad h
  | fAnd => exact ends_onWords (fun _ => ends_complete) h
  | fOr => exact ends_onWords (fun _ => ends_complete) h
  | fXor => exact ends_onWords (fun _ => ends_complete) h
  | fNot => exact ends_onWords (fun _ => ends_complete) h
  | fRotr n => exact ends_onWords (fun _ => ends_complete) h
  | fShr n => exact ends_onWords (fun _ => ends_complete) h
  | fAdd k => exact ends_fAdd h
  | rdH j => exact ends_onNone ends_complete h
  | rdK t => exact ends_onNone ends_complete h
  | sSig0 => exact ends_onWords (fun _ => ends_complete) h
  | sSig1 => exact ends_onWords (fun _ => ends_complete) h
  | bSig0 => exact ends_onWords (fun _ => ends_complete) h
  | bSig1 => exact ends_onWords (fun _ => ends_complete) h
  | ch => exact ends_onWords (fun _ => ends_complete) h
  | maj => exact ends_onWords (fun _ => ends_complete) h
  | sched => exact ends_onWords (fun _ => ends_computed) h
  | round t => exact ends_onWords (fun _ => ends_computed) h
  | compress => exact ends_onWords (fun _ => ends_computed) h
  | hash => exact ends_hash h
  | hashX => exact ends_hashX h
  | dInit p => exact ends_dInit h
  | dStep => exact ends_dStep h
  | dStat => exact ends_onNone ends_complete h
  | dDrop => exact ends_dDrop h

/-- A result that is a next state. -/
def IsNext (r : Result) : Prop := ∃ t, r = .next t

theorem isNext_complete (s : State) (out : List Item) : IsNext (complete s out) := ⟨_, rfl⟩

theorem isNext_fail (s : State) (k : ErrorKind) : IsNext (fail s k) := ⟨_, rfl⟩

theorem isNext_onWords {k : Nat} {s : State} {f : Vector Word32 k → Result}
    (hf : ∀ v, IsNext (f v)) : IsNext (onWords k s f) := by
  rcases onWords_cases k s f with ⟨v, -, e⟩ | ⟨-, e⟩
  · rw [e]; exact hf v
  · rw [e]; exact isNext_fail _ _

theorem isNext_onNone {s : State} {r : Result} (hr : IsNext r) : IsNext (onNone s r) := by
  rcases onNone_cases s r with ⟨-, e⟩ | ⟨-, e⟩
  · rw [e]; exact hr
  · rw [e]; exact isNext_fail _ _

theorem isNext_consumeBlock {s : State} (h : s.idx < s.nblk → 512 * s.idx + 512 ≤ s.msg.length) :
    IsNext (consumeBlock s) := by
  unfold consumeBlock
  split
  · exact isNext_fail _ _
  · rw [readBlock_eq, if_pos (h (by omega))]
    exact isNext_complete _ _

theorem isNext_dStep {s : State}
    (h : s.phase ≠ .empty → s.idx < s.nblk → 512 * s.idx + 512 ≤ s.msg.length) :
    IsNext (execDStep s) := by
  refine isNext_onNone ?_
  cases hp : s.phase with
  | empty => exact isNext_fail _ _
  | initialized => exact isNext_consumeBlock (h (by simp [hp]))
  | advanced => exact isNext_consumeBlock (h (by simp [hp]))

/-- DSTEP with a context and a block inside MSG consumes it (R163). -/
theorem consumeBlock_of {s : State} (lt : s.idx < s.nblk)
    (inside : 512 * s.idx + 512 ≤ s.msg.length) :
    consumeBlock s = complete (advance (blockAt s.msg s.idx) s).releaseDatapath
      (ofWords (compress s.hs (blockAt s.msg s.idx))) := by
  rw [consumeBlock, if_neg (by omega), readBlock_eq, if_pos inside]

/-- DSTEP with a context is the consumption of a block (R163). -/
theorem execDStep_of {s : State} (hp : s.payload = []) (ctx : s.phase ≠ .empty) :
    execDStep s = consumeBlock s := by
  rw [execDStep, onNone_of _ hp]
  cases h : s.phase with
  | empty => exact absurd h ctx
  | initialized => rfl
  | advanced => rfl

/-- DSTEP with no context is an error (R164). -/
theorem execDStep_empty {s : State} (hp : s.payload = []) (ctx : s.phase = .empty) :
    execDStep s = fail s .configurationError := by
  rw [execDStep, onNone_of _ hp, ctx]

/-- A command other than DSTEP always has a next state. -/
theorem exec_next {i : Instr} (hi : i ≠ .dStep) (s : State) : IsNext (exec i s) := by
  cases i with
  | dStep => exact absurd rfl hi
  | toBits =>
    simp only [exec, execToBits]
    repeat' split
    all_goals exact ⟨_, rfl⟩
  | hexToBits =>
    simp only [exec, execHexToBits]
    repeat' split
    all_goals exact ⟨_, rfl⟩
  | bitsToHex =>
    simp only [exec, execBitsToHex]
    repeat' split
    all_goals exact ⟨_, rfl⟩
  | pad =>
    simp only [exec, execPad]
    repeat' split
    all_goals exact ⟨_, rfl⟩
  | fAnd => exact isNext_onWords fun _ => isNext_complete _ _
  | fOr => exact isNext_onWords fun _ => isNext_complete _ _
  | fXor => exact isNext_onWords fun _ => isNext_complete _ _
  | fNot => exact isNext_onWords fun _ => isNext_complete _ _
  | fRotr n => exact isNext_onWords fun _ => isNext_complete _ _
  | fShr n => exact isNext_onWords fun _ => isNext_complete _ _
  | fAdd k =>
    simp only [exec, execFAdd]
    split
    · exact isNext_onWords fun _ => isNext_complete _ _
    · exact isNext_fail _ _
  | rdH j => exact isNext_onNone (isNext_complete _ _)
  | rdK t => exact isNext_onNone (isNext_complete _ _)
  | sSig0 => exact isNext_onWords fun _ => isNext_complete _ _
  | sSig1 => exact isNext_onWords fun _ => isNext_complete _ _
  | bSig0 => exact isNext_onWords fun _ => isNext_complete _ _
  | bSig1 => exact isNext_onWords fun _ => isNext_complete _ _
  | ch => exact isNext_onWords fun _ => isNext_complete _ _
  | maj => exact isNext_onWords fun _ => isNext_complete _ _
  | sched => exact isNext_onWords fun _ => isNext_complete _ _
  | round t => exact isNext_onWords fun _ => isNext_complete _ _
  | compress => exact isNext_onWords fun _ => isNext_complete _ _
  | hash =>
    simp only [exec, execHash]
    repeat' split
    all_goals exact ⟨_, rfl⟩
  | hashX =>
    simp only [exec, execHashX]
    repeat' split
    all_goals exact ⟨_, rfl⟩
  | dInit p =>
    simp only [exec, execDInit]
    repeat' split
    all_goals exact ⟨_, rfl⟩
  | dStat => exact isNext_onNone (isNext_complete _ _)
  | dDrop => exact isNext_onNone (isNext_complete _ _)

/-- The command presented next, and the state its payload stands in. -/
theorem nextCommand_cons {s : State} {c : Command} {rest : List Command}
    (hp : s.pending = c :: rest) :
    nextCommand s = some (c, { s with pending := rest, payload := c.payload }) := by
  simp [nextCommand, hp]

theorem nextCommand_nil {s : State} (hp : s.pending = []) : nextCommand s = none := by
  simp [nextCommand, hp]

end Sys2Proof.Machine
end

