-- ==== Sys2Proof/Laws/Framing.lean ====
section
/-! SUPPORT. Lengths and elements of the framing helpers' results (spec/40_framing.md). -/

namespace Sys2Proof.Machine

@[simp] theorem byteBits_length (v : Fin 256) : (byteBits v).length = 8 := by simp [byteBits]

@[simp] theorem be64_length (n : Nat) : (be64 n).length = 64 := by simp [be64]

theorem be64_get (n i : Nat) (h : i < 64) :
    (be64 n)[i]'(by simpa using h) = beta (n / 2 ^ (63 - i) % 2) := by simp [be64]

@[simp] theorem toBits_length (m : List (Fin 256)) : (toBits m).length = 8 * m.length := by
  induction m with
  | nil => rfl
  | cons b m ih => simp only [toBits, List.flatMap_cons, List.length_append] at *; simp [ih]; omega

@[simp] theorem toBits_nil : toBits [] = [] := rfl

@[simp] theorem toBits_cons (b : Fin 256) (m : List (Fin 256)) :
    toBits (b :: m) = byteBits b ++ toBits m := rfl

theorem pad_length (m : List FieldBit) : (pad m).length = paddedLength m.length := by
  simp [pad, paddedLength]; omega

/-- The padded length is whole blocks (R82). -/
theorem pad_aligned (m : List FieldBit) : (pad m).length % 512 = 0 := by
  rw [pad_length, paddedLength_mod]

@[simp] theorem nibbleBits_length (d : Nat) : (nibbleBits d).length = 4 := rfl

theorem hexval_lt {c d : Nat} (h : hexval c = some d) : d < 16 := by
  unfold hexval at h
  split at h
  · cases h; omega
  · split at h
    · cases h; omega
    · split at h
      · cases h; omega
      · cases h

/-- A lower-case hex digit reads back as its value (R87). -/
theorem hexval_hexdigit {d : Nat} (h : d < 16) : hexval (hexdigit d) = some d := by
  unfold hexval hexdigit
  split
  · rw [if_pos (by omega)]; simp
  · rw [if_neg (by omega), if_neg (by omega), if_pos (by omega)]; congr 1; omega

theorem digitsToBits_length : ∀ {cs : List Nat} {bs : List FieldBit},
    digitsToBits cs = some bs → bs.length = 4 * cs.length
  | [], bs, h => by cases h; rfl
  | c :: cs, bs, h => by
    simp only [digitsToBits] at h
    split at h
    · cases h
    · split at h
      · cases h
      · rename_i hr
        cases h
        have := digitsToBits_length hr
        simp; omega

/-- The four bits of a digit's value determine it, and come back from it (R84, R85). -/
theorem nibbleBits_value (a b c d : FieldBit) :
    nibbleBits (8 * bitVal a + 4 * bitVal b + 2 * bitVal c + bitVal d) = [a, b, c, d] := by
  cases a <;> cases b <;> cases c <;> cases d <;> rfl

theorem nibble_lt (a b c d : FieldBit) :
    8 * bitVal a + 4 * bitVal b + 2 * bitVal c + bitVal d < 16 := by
  cases a <;> cases b <;> cases c <;> cases d <;> decide

end Sys2Proof.Machine
end

