-- ==== Sys2Proof/Laws/Memory.lean ====
section
/-! SUPPORT. The message buffer: what a block read gives, and that every operation that writes MSG
keeps its form (spec/20_memory.md R44, R47; spec/10_state.md R18). -/

namespace Sys2Proof.Machine

/-- Word `k` element `i` of block `j` is element `512·j + 32·k + i` of the message (R44). -/
theorem blockAt_get (m : List FieldBit) (j k i : Nat) (hk : k < 16) (hi : i < 32)
    (h : 512 * j + 512 ≤ m.length) :
    (blockAt m j)[k][i] = m[512 * j + 32 * k + i]'(by omega) := by
  simp [blockAt, List.getD_eq_getElem?_getD, List.getElem?_eq_getElem
    (show 512 * j + 32 * k + i < m.length by omega)]

theorem readBlock_inside {m : Memory} {j : Nat} (h : 512 * j + 512 ≤ m.length) :
    Memory.readBlock m j = some (blockAt m j) := if_pos h

theorem readBlock_outside {m : Memory} {j : Nat} (h : ¬ 512 * j + 512 ≤ m.length) :
    Memory.readBlock m j = none := if_neg h

theorem memory_wf_iff {m : Memory} : Memory.wf m = true ↔ m.length % 512 = 0 := by
  simp [Memory.wf]

/-- The buffer after a load is the message loaded. -/
theorem load_eq (m : Memory) (p : List FieldBit) : Memory.load m p = p := rfl

/-- Loading a block-aligned message keeps the form. -/
theorem load_wf (m : Memory) {p : List FieldBit} (h : p.length % 512 = 0) :
    Memory.wf (Memory.load m p) = true := memory_wf_iff.2 h

theorem reset_memory_wf : Memory.wf State.reset.msg = true := by decide

/-- DINIT's checks passed: the length is whole blocks, no index comes without a prior state, and the
index is in range (R161, R162). -/
theorem initError_none {o : InitOperands} :
    initError o = none ↔ o.message.length % 512 = 0 ∧ (o.prior = none → o.index = 0) ∧
      o.index < o.message.length / 512 := by
  unfold initError
  split
  · simp_all
  · split
    · simp_all
    · split
      · simp_all
      · simp_all

/-- Every way a command ends keeps MSG's form. -/
theorem ends_keeps_memory_wf {s t : State} (h : Ends s t) (hw : Memory.wf s.msg = true) :
    Memory.wf t.msg = true := by
  cases h with
  | pure out => simpa using hw
  | computed out => simpa using hw
  | error k => simpa using hw
  | init o lt cap ok => exact load_wf s.msg (initError_none.1 ok).1
  | stepped ctx lt inside => simpa using hw
  | dropped =>
    by_cases hp : s.phase = .empty
    · simpa [dropContext_empty hp] using hw
    · simp [dropContext_of_ne hp, Memory.wf]

end Sys2Proof.Machine
end

