-- ==== Sys2Proof/Laws/PerInstr.lean ====
section
/-! SUPPORT. Laws made per instruction. Family OpcodeRow: the command word the encoder writes lies in
the instruction's row of spec/30_encoding.md R66, `cw AND mask = match`. -/

namespace Sys2Proof.Laws.OpcodeRow

/-- The encoded word, masked as the row says, is the row's match. -/
def Statement (i : Instr) : Prop := encode i &&& (opcodeRow i).2 = (opcodeRow i).1

theorem toBits : Statement .toBits := by unfold Statement; decide
theorem hexToBits : Statement .hexToBits := by unfold Statement; decide
theorem bitsToHex : Statement .bitsToHex := by unfold Statement; decide
theorem pad : Statement .pad := by unfold Statement; decide
theorem fAnd : Statement .fAnd := by unfold Statement; decide
theorem fOr : Statement .fOr := by unfold Statement; decide
theorem fXor : Statement .fXor := by unfold Statement; decide
theorem fNot : Statement .fNot := by unfold Statement; decide

/-- An 8-bit immediate is outside the mask of a row of format I8. -/
theorem wide_imm (op n : BitVec 8) : (op ++ n) &&& 0xFF00#16 = op ++ 0#8 := by
  ext i hi
  simp only [BitVec.getElem_and, BitVec.getElem_append]
  by_cases h : i < 8
  · have hm : (0xFF00#16)[i] = false := by
      have : ∀ j : Fin 8, (0xFF00#16).getLsbD j.val = false := by decide
      rw [← BitVec.getLsbD_eq_getElem]
      exact this ⟨i, h⟩
    simp [h, hm]
  · have hm : (0xFF00#16)[i] = true := by
      have : ∀ j : Fin 8, (0xFF00#16).getLsbD (8 + j.val) = true := by decide
      rw [← BitVec.getLsbD_eq_getElem]
      have := this ⟨i - 8, by omega⟩
      rwa [show 8 + (i - 8) = i by omega] at this
    simp [h, hm]

theorem fRotr (n : Fin 256) : Statement (.fRotr n) :=
  (wide_imm 0x14 (BitVec.ofNat 8 n.val)).trans rfl

theorem fShr (n : Fin 256) : Statement (.fShr n) :=
  (wide_imm 0x15 (BitVec.ofNat 8 n.val)).trans rfl

theorem fAdd (k : Fin 8) : Statement (.fAdd k) := by unfold Statement; revert k; decide
theorem rdH (i : Fin 8) : Statement (.rdH i) := by unfold Statement; revert i; decide
theorem rdK (t : Fin 64) : Statement (.rdK t) := by unfold Statement; revert t; decide
theorem sSig0 : Statement .sSig0 := by unfold Statement; decide
theorem sSig1 : Statement .sSig1 := by unfold Statement; decide
theorem bSig0 : Statement .bSig0 := by unfold Statement; decide
theorem bSig1 : Statement .bSig1 := by unfold Statement; decide
theorem ch : Statement .ch := by unfold Statement; decide
theorem maj : Statement .maj := by unfold Statement; decide
theorem sched : Statement .sched := by unfold Statement; decide
theorem round (t : Fin 64) : Statement (.round t) := by unfold Statement; revert t; decide
theorem compress : Statement .compress := by unfold Statement; decide
theorem hash : Statement .hash := by unfold Statement; decide
theorem hashX : Statement .hashX := by unfold Statement; decide
theorem dInit (p : Bool) : Statement (.dInit p) := by unfold Statement; revert p; decide
theorem dStep : Statement .dStep := by unfold Statement; decide
theorem dStat : Statement .dStat := by unfold Statement; decide
theorem dDrop : Statement .dDrop := by unfold Statement; decide

end Sys2Proof.Laws.OpcodeRow
end

