-- ==== Sys2Proof/Machine/Assembly.lean ====
section
/-! DEFINITION. How the spec writes a command and a response (spec/30_encoding.md R71). The hardware
has no assembler and nothing of the machine uses this file: it is the notation of the spec's own
examples, so that a command of the model can be printed as the spec prints it. -/

namespace Sys2Proof.Machine

/-- The mnemonic of a command, in upper case (R66). -/
def mnemonic : Instr → String
  | .toBits => "TOBITS"
  | .hexToBits => "HEX2BITS"
  | .bitsToHex => "BITS2HEX"
  | .pad => "PAD"
  | .fAnd => "FAND"
  | .fOr => "FOR"
  | .fXor => "FXOR"
  | .fNot => "FNOT"
  | .fRotr _ => "FROTR"
  | .fShr _ => "FSHR"
  | .fAdd _ => "FADD"
  | .rdH _ => "RDH"
  | .rdK _ => "RDK"
  | .sSig0 => "SSIG0"
  | .sSig1 => "SSIG1"
  | .bSig0 => "BSIG0"
  | .bSig1 => "BSIG1"
  | .ch => "CH"
  | .maj => "MAJ"
  | .sched => "SCHED"
  | .round _ => "ROUND"
  | .compress => "COMPRESS"
  | .hash => "HASH"
  | .hashX => "HASHX"
  | .dInit _ => "DINIT"
  | .dStep => "DSTEP"
  | .dStat => "DSTAT"
  | .dDrop => "DDROP"

/-- The immediate operand: in decimal, or for DINIT as `P=0` or `P=1`. -/
def immediateText : Instr → String
  | .fRotr n | .fShr n => " " ++ toString n.val
  | .fAdd k => " " ++ toString k.val
  | .rdH i => " " ++ toString i.val
  | .rdK t | .round t => " " ++ toString t.val
  | .dInit p => if p then " P=1" else " P=0"
  | .toBits | .hexToBits | .bitsToHex | .pad | .fAnd | .fOr | .fXor | .fNot | .sSig0 | .sSig1
  | .bSig0 | .bSig1 | .ch | .maj | .sched | .compress | .hash | .hashX | .dStep | .dStat
  | .dDrop => ""

/-- `n` lower-case hex digits of a number, most significant first. -/
def hexText (n v : Nat) : String :=
  String.ofList ((List.range n).map fun i => Char.ofNat (hexdigit (v / 16 ^ (n - 1 - i) % 16)))

/-- The character of a binary digit. -/
def bitChar : FieldBit → Char
  | .zero => '0'
  | .one => '1'

/-- Bits that stand together are one sequence `0b…`, bytes one sequence `x:…`, characters one text in
double quotes; a word is eight hex digits, a natural is decimal, STATUS is `0x` and eight digits. A
malformed word is written as its bits. -/
inductive TextItem where
  | bits (es : List FieldBit)
  | bytes (vs : List Nat)
  | chars (cs : List Nat)
  | single (text : String)
  deriving DecidableEq, Repr

/-- Gather a payload's runs of bits, bytes and characters. -/
def gather : List Item → List TextItem
  | [] => []
  | .bit e :: rest =>
    match gather rest with
    | .bits es :: more => .bits (e :: es) :: more
    | more => .bits [e] :: more
  | .byte v :: rest =>
    match gather rest with
    | .bytes vs :: more => .bytes (v :: vs) :: more
    | more => .bytes [v] :: more
  | .char c :: rest =>
    match gather rest with
    | .chars cs :: more => .chars (c :: cs) :: more
    | more => .chars [c] :: more
  | .word es :: rest =>
    (if es.length = 32 then TextItem.single (hexText 8 (seqVal es))
      else TextItem.single ("0b" ++ String.ofList (es.map bitChar))) :: gather rest
  | .nat n :: rest => TextItem.single (toString n) :: gather rest
  | .status32 v :: rest => TextItem.single ("0x" ++ hexText 8 v.toNat) :: gather rest

/-- The text of one gathered item. -/
def TextItem.text : TextItem → String
  | .bits es => "0b" ++ String.ofList (es.map bitChar)
  | .bytes vs => "x:" ++ String.join (vs.map fun v => hexText 2 v)
  | .chars cs => "\"" ++ String.ofList (cs.map Char.ofNat) ++ "\""
  | .single text => text

/-- The items of a payload, separated by commas. -/
def itemsText (p : List Item) : String := String.intercalate ", " ((gather p).map TextItem.text)

/-- An empty payload where the row takes a list of any length. -/
def emptyText : Instr → String
  | .toBits | .hash => " ; x:"
  | .hexToBits | .hashX => " ; \"\""
  | .bitsToHex | .pad => " ; 0b"
  | .fAnd | .fOr | .fXor | .fNot | .fRotr _ | .fShr _ | .fAdd _ | .rdH _ | .rdK _ | .sSig0 | .sSig1
  | .bSig0 | .bSig1 | .ch | .maj | .sched | .round _ | .compress | .dInit _ | .dStep | .dStat
  | .dDrop => ""

/-- `MNEMONIC [imm-operand] [; payload-item, payload-item, ...]` (R71). -/
def commandText (i : Instr) (p : List Item) : String :=
  mnemonic i ++ immediateText i ++ (if p.isEmpty then emptyText i else " ; " ++ itemsText p)

/-- `-> OK ; items`, or `-> ` and the error's name (R71, R65). -/
def responseText (r : Response) : String :=
  match r.status with
  | .ok => "-> OK" ++ (if r.payload.isEmpty then "" else " ; " ++ itemsText r.payload)
  | .error .formatError => "-> FormatError"
  | .error .invariantViolation => "-> InvariantViolation"
  | .error .configurationError => "-> ConfigurationError"
  | .error .illegalCommand => "-> IllegalCommand"

/-- The encoding of a line is its command word in hex (R71). -/
def encodingText (i : Instr) : String := "0x" ++ hexText 4 (encode i).toNat

end Sys2Proof.Machine
end

