-- ==== Sys2Proof/Tests/Slice0.lean ====
section
/-! SUPPORT. Tests: expected results from spec/95_test_vectors.md and the examples of the rules, words
written out from spec/30_encoding.md, and for every statement with hypotheses a witness that meets
them. -/

namespace Sys2Proof.Tests

open Sys2Proof Sys2Proof.Machine

/-! ### Helpers -/

/-- The state after reset with a payload on the port. -/
def port (p : List Item) : State := { State.reset with payload := p }

/-- A word item, from its hex value. -/
def w (v : Nat) : Item := Item.ofWord (word v)

/-- The response a command gives. -/
def answer (r : Result) : Option Response :=
  match r with
  | .next s => s.response
  | .fault _ => none
  | .refused _ => none

/-- A response with status OK. -/
def ok (out : List Item) : Option Response := some { status := .ok, payload := out }

/-- A response with an error's status. -/
def err (k : ErrorKind) : Option Response := some { status := .error k, payload := [] }

/-- The status and the error log a command leaves. -/
def statusAndLog (r : Result) : Option (Option Status × BitVec 4) :=
  match r with
  | .next s => some (s.response.map Response.status, s.errlog)
  | .fault _ => none
  | .refused _ => none

/-- A context of `n` blocks of zeros at index `i`. -/
def ctx (n i : Nat) (ph : Phase) : State :=
  { State.reset with msg := List.replicate (512 * n) .zero, nblk := n, idx := i, phase := ph }

/-- A state in which one command is presented. -/
def present (cw : BitVec 16) (p : List Item) : State :=
  { State.reset with pending := [{ word := cw, payload := p }] }

/-! ### Well-formedness, encoding -/

theorem test_fadd_zero_ill_formed : (Instr.fAdd 0).wellFormed = false := by decide
theorem test_fadd_six_ill_formed : (Instr.fAdd 6).wellFormed = false := by decide
theorem test_fadd_seven_ill_formed : (Instr.fAdd 7).wellFormed = false := by decide
theorem test_fadd_bounds_well_formed :
    (Instr.fAdd 1).wellFormed = true ∧ (Instr.fAdd 5).wellFormed = true := by decide

/-- R66, group 0x0_. -/
theorem test_decode_framing : decode 0x0100 = .ok .toBits ∧ decode 0x0200 = .ok .hexToBits ∧
    decode 0x0300 = .ok .bitsToHex ∧ decode 0x0400 = .ok .pad := by decide
/-- R66, group 0x1_; 2.10. -/
theorem test_decode_field : decode 0x1000 = .ok .fAnd ∧ decode 0x1100 = .ok .fOr ∧
    decode 0x1200 = .ok .fXor ∧ decode 0x1300 = .ok .fNot ∧ decode 0x1407 = .ok (.fRotr 7) ∧
    decode 0x14ff = .ok (.fRotr 255) ∧ decode 0x150a = .ok (.fShr 10) ∧
    decode 0x1601 = .ok (.fAdd 1) ∧ decode 0x1605 = .ok (.fAdd 5) := by decide
/-- R66, group 0x2_; 2.3. -/
theorem test_decode_rom : decode 0x2004 = .ok (.rdH 4) ∧ decode 0x2007 = .ok (.rdH 7) ∧
    decode 0x2100 = .ok (.rdK 0) ∧ decode 0x213f = .ok (.rdK 63) := by decide
/-- R66, group 0x3_; 2.10. -/
theorem test_decode_compression : decode 0x3000 = .ok .sSig0 ∧ decode 0x3100 = .ok .sSig1 ∧
    decode 0x3200 = .ok .bSig0 ∧ decode 0x3300 = .ok .bSig1 ∧ decode 0x3400 = .ok .ch ∧
    decode 0x3500 = .ok .maj ∧ decode 0x3600 = .ok .sched ∧ decode 0x3700 = .ok (.round 0) ∧
    decode 0x373f = .ok (.round 63) ∧ decode 0x3800 = .ok .compress := by decide
/-- R66, groups 0x4_ and 0x5_. -/
theorem test_decode_engines : decode 0x4000 = .ok .hash ∧ decode 0x4100 = .ok .hashX ∧
    decode 0x5000 = .ok (.dInit false) ∧ decode 0x5001 = .ok (.dInit true) ∧
    decode 0x5100 = .ok .dStep ∧ decode 0x5200 = .ok .dStat ∧ decode 0x5300 = .ok .dDrop := by decide
/-- 2.9 and 2.10: the words the spec lists as illegal, with the check of R68 that fails. -/
theorem test_decode_illegal : decode 0x0000 = .error .unassignedOpcode ∧
    decode 0x0101 = .error .reservedImmediate ∧ decode 0x1600 = .error .faddCount ∧
    decode 0x1606 = .error .faddCount ∧ decode 0x2008 = .error .reservedImmediate ∧
    decode 0x2140 = .error .reservedImmediate ∧ decode 0x3740 = .error .reservedImmediate ∧
    decode 0x5002 = .error .reservedImmediate ∧ decode 0x5400 = .error .unassignedOpcode ∧
    decode 0xffff = .error .unassignedOpcode := by decide
theorem test_encode_words : encode (.fRotr 7) = 0x1407 ∧ encode (.fAdd 5) = 0x1605 ∧
    encode (.round 63) = 0x373f ∧ encode (.dInit true) = 0x5001 := by decide
theorem test_table_word : decodeTableWord 16 0x213f = some (.rdK 63) ∧
    decodeTableWord 16 0x2140 = none ∧ decodeTableWord 8 0x21 = none := by decide

/-! ### Assembler text (R71 and the examples) -/

theorem test_text_frotr : commandText (.fRotr 7) [w 0x6a09e667] = "FROTR 7 ; 6a09e667" := by
  decide +kernel
theorem test_text_hash : commandText .hash [.byte 0x61, .byte 0x62, .byte 0x63] = "HASH ; x:616263" :=
  by decide +kernel
theorem test_text_encoding : encodingText (.fRotr 7) = "0x1407" := by decide +kernel
theorem test_text_response : responseText { status := .error .configurationError, payload := [] } =
    "-> ConfigurationError" := by decide +kernel

/-! ### Framing (2.1) -/

theorem test_tobits_order : answer (exec .toBits (port [.byte 0x80, .byte 1])) =
    ok (ofBits [.one, .zero, .zero, .zero, .zero, .zero, .zero, .zero,
      .zero, .zero, .zero, .zero, .zero, .zero, .zero, .one]) := by decide
theorem test_tobits_not_bytes : answer (exec .toBits (port [.byte 256])) = err .illegalCommand := by
  decide
theorem test_hex2bits_case : answer (exec .hexToBits (port (ofChars [0x36, 0x61, 0x46, 0x30]))) =
    ok (ofBits [.zero, .one, .one, .zero, .one, .zero, .one, .zero,
      .one, .one, .one, .one, .zero, .zero, .zero, .zero]) := by decide
theorem test_hex2bits_errors : answer (exec .hexToBits (port (ofChars [0x61, 0x62, 0x63]))) =
      err .formatError ∧
    answer (exec .hexToBits (port (ofChars [0x30, 0x67]))) = err .formatError ∧
    answer (exec .hexToBits (port (ofChars [0x30, 0x78, 0x30, 0x30]))) = err .formatError := by decide
theorem test_bits2hex_lower : answer (exec .bitsToHex (port (ofBits
      [.zero, .one, .one, .zero, .one, .zero, .one, .zero,
       .one, .one, .one, .one, .zero, .zero, .zero, .zero]))) =
    ok (ofChars [0x36, 0x61, 0x66, 0x30]) := by decide
theorem test_bits2hex_nibble : answer (exec .bitsToHex (port (ofBits [.zero, .one, .one, .zero]))) =
    err .formatError := by decide
/-- 2.1's table of lengths. -/
theorem test_pad_lengths : [0, 1, 7, 8, 24, 432, 440, 447, 448, 449, 504, 511, 512, 952, 960].map
      (fun L => (padZeros L, paddedLength L)) =
    [(447, 512), (446, 512), (440, 512), (439, 512), (423, 512), (15, 512), (7, 512), (0, 512),
     (511, 1024), (510, 1024), (455, 1024), (448, 1024), (447, 1024), (7, 1024), (511, 1536)] := by
  decide
/-- 2.1: `PAD ; 0b101`, the first byte b0 and the last byte 03. -/
theorem test_pad_odd_bits : (pad [.one, .zero, .one]).take 8 =
      [.one, .zero, .one, .one, .zero, .zero, .zero, .zero] ∧
    (pad [.one, .zero, .one]).drop 504 =
      [.zero, .zero, .zero, .zero, .zero, .zero, .one, .one] := by decide +kernel

/-! ### Bit-level field operations (2.2) -/

theorem test_fand : answer (exec .fAnd (port [w 0x6a09e667, w 0xbb67ae85])) = ok [w 0x2a01a605] := by
  decide
theorem test_fand_one_word : answer (exec .fAnd (port [w 0x6a09e667])) = err .illegalCommand := by
  decide
theorem test_fand_short_word : answer (exec .fAnd
    (port [.word (List.replicate 31 .zero), w 0xbb67ae85])) = err .illegalCommand := by decide
theorem test_for : answer (exec .fOr (port [w 0x6a09e667, w 0xbb67ae85])) = ok [w 0xfb6feee7] := by
  decide
theorem test_fxor : answer (exec .fXor (port [w 0x6a09e667, w 0xbb67ae85])) = ok [w 0xd16e48e2] := by
  decide
theorem test_fnot : answer (exec .fNot (port [w 0x6a09e667])) = ok [w 0x95f61998] := by decide
theorem test_frotr : answer (exec (.fRotr 7) (port [w 0x6a09e667])) = ok [w 0xced413cc] := by decide
theorem test_frotr_over : answer (exec (.fRotr 255) (port [w 0x6a09e667])) = ok [w 0xd413ccce] := by
  decide
theorem test_fshr_low_end : answer (exec (.fShr 31) (port [w 0x80000001])) = ok [w 1] := by decide
theorem test_fshr_over : answer (exec (.fShr 32) (port [w 0x6a09e667])) = ok [w 0] := by decide
theorem test_fadd_wraps : answer (exec (.fAdd 2) (port [w 0x6a09e667, w 0xbb67ae85])) =
    ok [w 0x257194ec] := by decide
theorem test_fadd_five : answer (exec (.fAdd 5)
    (port [w 0x5be0cd19, w 0x3587272b, w 0x1f85c98c, w 0x428a2f98, w 0x61626380])) =
    ok [w 0x54da50e8] := by decide +kernel

/-! ### Constant ROM (2.3) -/

theorem test_rdh : answer (exec (.rdH 7) (port [])) = ok [w 0x5be0cd19] := by decide
theorem test_rdk : answer (exec (.rdK 63) (port [])) = ok [w 0xc67178f2] := by decide
/-- R122: the columns of a row, and the rows' order. -/
theorem test_rom_rows : romKHex[0] = 0x428a2f98 ∧ romKHex[1] = 0x71374491 ∧ romKHex[6] = 0x923f82a4 ∧
    romKHex[62] = 0xbef9a3f7 := by decide
theorem test_rdk_surplus : answer (exec (.rdK 63) (port [w 0])) = err .illegalCommand := by decide

/-! ### Compression (2.4 to 2.6) -/

theorem test_ssig0 : answer (exec .sSig0 (port [w 0x6a09e667])) = ok [w 0xba0cf582] := by decide
theorem test_ssig1 : answer (exec .sSig1 (port [w 0x6a09e667])) = ok [w 0xcfe5da3c] := by decide
theorem test_bsig0 : answer (exec .bSig0 (port [w 0x6a09e667])) = ok [w 0xce20b47e] := by decide
theorem test_bsig1 : answer (exec .bSig1 (port [w 0x510e527f])) = ok [w 0x3587272b] := by decide
theorem test_ch : answer (exec .ch (port [w 0x510e527f, w 0x9b05688c, w 0x1f83d9ab])) =
    ok [w 0x1f85c98c] := by decide
theorem test_maj : answer (exec .maj (port [w 0x6a09e667, w 0xbb67ae85, w 0x3c6ef372])) =
    ok [w 0x3a6fe667] := by decide

/-- The words of the "abc" block. -/
def abcBlock : Vector Word32 16 :=
  Vector.ofFn fun k : Fin 16 => word (if k.val = 0 then 0x61626380 else if k.val = 15 then 0x18 else 0)

/-- 2.4: entries of the "abc" schedule. -/
theorem test_sched_abc : (toNums (schedule abcBlock))[16] = 0x61626380 ∧
    (toNums (schedule abcBlock))[17] = 0x000f0000 ∧ (toNums (schedule abcBlock))[63] = 0x12b1edeb := by
  rw [toNums_schedule]
  decide +kernel
/-- 2.5: round 0 of the "abc" block. -/
theorem test_round_abc : toNums (roundStep 0 romHAll (word 0x61626380)) =
    #v[0x5d6aebcd, 0x6a09e667, 0xbb67ae85, 0x3c6ef372, 0xfa2a4622, 0x510e527f, 0x9b05688c,
      0x1f83d9ab] := by
  rw [toNums_roundStep]
  decide +kernel
/-- 2.6: the "abc" block from `ROMH`. -/
theorem test_compress_abc : toNums (compress romHAll abcBlock) =
    #v[0xba7816bf, 0x8f01cfea, 0x414140de, 0x5dae2223, 0xb00361a3, 0x96177a9c, 0xb410ff61,
      0xf20015ad] := by
  rw [toNums_compress]
  decide +kernel
/-- 2.6: the zero block from the zero state. -/
theorem test_compress_zero : toNums (compress (Vector.replicate 8 (word 0)) (Vector.replicate 16 (word 0))) =
    #v[0x7ca51614, 0x425c3ba8, 0xce54dd2f, 0xc2020ae7, 0xb6e574d1, 0x98136d0f, 0xae7e26cc,
      0xbf0be7a6] := by
  rw [toNums_compress]
  decide +kernel
theorem test_sched_completes : statusAndLog (exec .sched (port (List.replicate 16 (w 0)))) =
    some (some .ok, 0) := by decide
theorem test_round_completes : statusAndLog (exec (.round 63) (port (List.replicate 9 (w 0)))) =
    some (some .ok, 0) := by decide
theorem test_compress_completes : statusAndLog (exec .compress (port (List.replicate 24 (w 0)))) =
    some (some .ok, 0) := by decide

/-! ### Native engine (2.7) -/

theorem native_one_block {m : List (Fin 256)} (h : paddedLength (8 * m.length) / 512 = 1) :
    native m = compress romHAll (blockAt (pad (toBits m)) 0) := by
  have hl : (pad (toBits m)).length / 512 = 1 := by rw [pad_length, toBits_length, h]
  rw [native, nativeBits, foldBlocks, hl]
  rfl

theorem test_hash_zero_byte : toNums (native [0]) =
    #v[0x6e340b9c, 0xffb37a98, 0x9ca544e6, 0xbb780a2c, 0x78901d3f, 0xb3373876, 0x8511a306,
      0x17afa01d] := by
  rw [native_one_block (by decide), toNums_compress]
  decide +kernel
theorem test_hash_abc : toNums (native [0x61, 0x62, 0x63]) =
    #v[0xba7816bf, 0x8f01cfea, 0x414140de, 0x5dae2223, 0xb00361a3, 0x96177a9c, 0xb410ff61,
      0xf20015ad] := by
  rw [native_one_block (by decide), toNums_compress]
  decide +kernel
theorem test_hashx_errors : answer (exec .hashX (port (ofChars [0x36, 0x61, 0x66]))) =
      err .formatError ∧
    answer (exec .hashX (port (ofChars [0x36, 0x78]))) = err .formatError := by decide
theorem test_hash_completes : statusAndLog (exec .hash (port [])) = some (some .ok, 0) ∧
    statusAndLog (exec .hashX (port (ofChars [0x30, 0x30]))) = some (some .ok, 0) := by decide

/-! ### Dynamic engine and errors (2.8, 2.9) -/

/-- After reset, DSTEP has no context. -/
theorem test_dstep_after_reset : statusAndLog (exec .dStep (port [])) =
    some (some (.error .configurationError), 0b0100) := by decide
theorem test_dstat_after_reset : answer (exec .dStat (port [])) =
    ok [.status32 0, .nat 0, .nat 0] := by decide
/-- 2.8, last row: Advanced, terminal, ERRLOG bit 2. -/
theorem test_dstat_terminal : answer (exec .dStat
      { State.reset with phase := .advanced, idx := 3, nblk := 3, errlog := 0b0100 }) =
    ok [.status32 0x00000406, .nat 3, .nat 3] := by decide
theorem test_dinit_empty_message : statusAndLog (exec (.dInit false) (port [.nat 0])) =
    some (some (.error .configurationError), 0b0100) := by decide
theorem test_dinit_unaligned : statusAndLog (exec (.dInit false) (port [.bit .one, .nat 7])) =
    some (some (.error .invariantViolation), 0b0010) := by decide
theorem test_dinit_prior_count : statusAndLog (exec (.dInit true) (port [.nat 0])) =
    some (some (.error .illegalCommand), 0b1000) := by decide
theorem test_ddrop_clears : (match exec .dDrop (ctx 2 1 .advanced) with
      | .next t => (t.phase, t.idx, t.nblk, t.msg)
      | _ => (.advanced, 9, 9, [])) = (.empty, 0, 0, []) := by decide
/-- A context of `n` blocks at index `i` meets the invariant. -/
theorem ctx_inv {n i : Nat} {ph : Phase} (hi : i ≤ n) (hn : n ≤ 100) (he : ph = .empty → n = 0)
    (h1 : ph = .initialized → i < n) (h2 : ph = .advanced → 0 < i) : StateInv (ctx n i ph) := by
  constructor <;> simp only [ctx, State.reset, Config.maxMsgBitsLimit, List.length_replicate] <;>
    first | assumption | omega

/-- The message of such a context. -/
theorem ctx_length (n i : Nat) (ph : Phase) : (ctx n i ph).msg.length = 512 * n :=
  List.length_replicate

/-- A DSTEP of the last block is answered and ends in the terminal state. -/
theorem test_dstep_last_block : ∃ t, exec .dStep (ctx 2 1 .initialized) = .next t ∧ t.idx = 2 ∧
    terminal t = true ∧ t.msg = (ctx 2 1 .initialized).msg := by
  have h := (execDStep_of (s := ctx 2 1 .initialized) rfl (by decide)).trans
    (consumeBlock_of (by decide) (by rw [ctx_length]; decide))
  exact ⟨_, h, rfl, rfl, rfl⟩
/-- MemRead outside MSG stops; no state that meets the invariant reaches it. -/
theorem test_dstep_outside_message : exec .dStep { ctx 0 0 .initialized with nblk := 1 } =
    .fault .messageAddress := by rfl
/-- 3.5, row 5: an illegal command word sets ERRLOG bit 3. -/
theorem test_step_illegal_word : statusAndLog (step (present 0x0500 [])) =
    some (some (.error .illegalCommand), 0b1000) := by decide
theorem test_step_runs : (match step (present 0x1300 [w 0x6a09e667]) with
      | .next t => (t.response, t.pending, t.payload)
      | _ => (none, [], [])) = (ok [w 0x95f61998], [], []) := by decide
/-- A command word of the table, placed where the step takes its next command, is run. -/
theorem test_fetch_word : answer (step (State.reset.withFetchWord 16 0x1605)) = ok [w 0] := by
  decide +kernel

/-! ### Witnesses: for every statement with hypotheses, operands that meet them -/

theorem witness_DecodeInvertsEncode :
    (Instr.fAdd 1).wellFormed = true ∧ (Instr.fAdd 5).wellFormed = true := by decide
theorem witness_EncodeInvertsDecode : decode 0x1605 = .ok (.fAdd 5) := by decide
theorem witness_StepRunsDecoded :
    (present 0x5200 []).pending = [{ word := 0x5200, payload := [] }] ∧
      decode 0x5200 = .ok .dStat := by decide
theorem witness_StepAnswersIllegalWord :
    (present 0xffff []).pending = [{ word := 0xffff, payload := [] }] ∧
      decode 0xffff = .error .unassignedOpcode := by decide
theorem witness_StepWaitsWithNoCommand : State.reset.pending = [] := rfl
theorem witness_OneResponsePerCommand :
    (present 0x5200 []).pending = [{ word := 0x5200, payload := [] }] ∧
      ∃ t, step (present 0x5200 []) = .next t := ⟨rfl, _, rfl⟩
theorem witness_IllegalPayloadExactly_both :
    (∃ t, exec .fNot (port []) = .next t ∧ t.response = err .illegalCommand) ∧
      PayloadTaken (port [w 0]).maxMsgBits .fNot (port [w 0]).payload :=
  ⟨⟨_, rfl, rfl⟩, #v[word 0], rfl⟩
theorem witness_LanewiseCommands :
    (port (ofWords #v[word 5, word 3])).payload = ofWords #v[word 5, word 3] ∧
      (port (ofWords #v[word 5])).payload = ofWords #v[word 5] := ⟨rfl, rfl⟩
theorem witness_RotateAndShiftCommands :
    (port (ofWords #v[word 0x80000001])).payload = ofWords #v[word 0x80000001] := rfl
theorem witness_AddCommand_one : (port (ofWords #v[word 7])).payload = ofWords #v[word 7] ∧
    1 ≤ (1 : Fin 8).val ∧ (1 : Fin 8).val ≤ 5 := ⟨rfl, by decide, by decide⟩
theorem witness_AddCommand_five : (port (ofWords (Vector.replicate 5 (word 0xffffffff)))).payload =
    ofWords (Vector.replicate 5 (word 0xffffffff)) ∧ 1 ≤ (5 : Fin 8).val ∧ (5 : Fin 8).val ≤ 5 :=
  ⟨rfl, by decide, by decide⟩
theorem witness_AddCommand_illegal : (0 : Fin 8).val = 0 ∧ 5 < (6 : Fin 8).val ∧
    ∀ v : Vector Word32 (2 : Fin 8).val, (port []).payload ≠ ofWords v := by
  refine ⟨rfl, by decide, fun v h => ?_⟩
  have hl := congrArg List.length h
  simp [port, ofWords] at hl
theorem witness_RomReadCommands : (port []).payload = [] := rfl
theorem witness_ToBitsCommand : (port (ofBytes [0x61])).payload = ofBytes [0x61] ∧
    8 * [(0x61 : Fin 256)].length < 2 ^ 64 ∧
    512 * ((8 * [(0x61 : Fin 256)].length + 64) / 512 + 1) ≤ (port (ofBytes [0x61])).maxMsgBits := by
  refine ⟨rfl, ?_, ?_⟩ <;> decide
theorem witness_HexToBitsCommand_good : (port (ofChars [0x36, 0x61])).payload = ofChars [0x36, 0x61] ∧
    4 * [0x36, 0x61].length < 2 ^ 64 ∧ 4 * [0x36, 0x61].length ≤ (port []).maxMsgBits ∧
    [0x36, 0x61].length % 2 = 0 ∧ ∀ c ∈ [0x36, 0x61], hexval c ≠ none := by
  refine ⟨rfl, ?_, ?_, ?_, ?_⟩ <;> decide
theorem witness_HexToBitsCommand_bad : (port (ofChars [0x36])).payload = ofChars [0x36] ∧
    [0x36].length % 2 = 1 ∧ hexval 0x40 = none ∧ hexval 0x47 = none ∧ hexval 0x67 = none := by
  refine ⟨rfl, ?_, ?_, ?_, ?_⟩ <;> decide
theorem witness_BitsToHexCommand : (List.replicate 8 FieldBit.one).length % 8 = 0 ∧
    (List.replicate 7 FieldBit.one).length % 8 ≠ 0 ∧
    (port (ofBits (List.replicate 8 .one))).payload = ofBits (List.replicate 8 .one) ∧
    8 ≤ (port []).maxMsgBits := by
  refine ⟨?_, ?_, rfl, ?_⟩ <;> decide
theorem witness_HexRoundTrip : [0x41, 0x66].length % 2 = 0 ∧ ∀ c ∈ [0x41, 0x66], hexval c ≠ none := by
  decide
theorem witness_PadCommand : (port (ofBits (List.replicate 3 .one))).payload =
      ofBits (List.replicate 3 .one) ∧
    512 * ((3 + 64) / 512 + 1) ≤ (port []).maxMsgBits := ⟨rfl, by decide⟩
theorem witness_SigmaCommands : (port (ofWords #v[word 1])).payload = ofWords #v[word 1] := rfl
theorem witness_ChAndMajCommands :
    (port (ofWords #v[word 1, word 2, word 3])).payload = ofWords #v[word 1, word 2, word 3] := rfl
theorem witness_SchedCommand : (port (ofWords abcBlock)).payload = ofWords abcBlock := rfl
theorem witness_RoundCommand :
    (port (ofWords #v[word 1, word 2, word 3, word 4, word 5, word 6, word 7, word 8, word 9])).payload =
      ofWords #v[word 1, word 2, word 3, word 4, word 5, word 6, word 7, word 8, word 9] := rfl
theorem witness_CompressCommand :
    (port (ofWords romHAll ++ ofWords abcBlock)).payload = ofWords romHAll ++ ofWords abcBlock := rfl
theorem witness_HashEqualsReference : (port (ofBytes [0x61, 0x62])).payload = ofBytes [0x61, 0x62] ∧
    512 * ((8 * 2 + 64) / 512 + 1) ≤ (port []).maxMsgBits := ⟨rfl, by decide⟩
theorem witness_HashHexCommand_good : [0x36, 0x31].length = 2 * [(0x61 : Fin 256)].length ∧
    ∀ j : Fin 1, ∃ hi lo c d, [0x36, 0x31][2 * j.val]? = some c ∧ [0x36, 0x31][2 * j.val + 1]? = some d ∧
      hexval c = some hi ∧ hexval d = some lo ∧ ([(0x61 : Fin 256)][j]).val = 16 * hi + lo := by
  refine ⟨rfl, fun j => ⟨6, 1, 0x36, 0x31, ?_⟩⟩
  revert j
  decide
theorem witness_HashHexCommand_bad : [0x36].length % 2 = 1 ∧ hexval 0x78 = none := by decide

/-- DINIT's boundary cases: index 0 with no prior state, and the last index with one. -/
theorem witness_InitConstructsContext (prior : Vector Word32 8) :
    (List.replicate 512 FieldBit.one).length % 512 = 0 ∧
      0 < (List.replicate 512 FieldBit.one).length / 512 ∧
      1 < (List.replicate 1024 FieldBit.one).length / 512 ∧
      (some prior = none → (1 : Nat) = 0) ∧ (List.replicate 1024 FieldBit.one).length < 2 ^ 64 ∧
      (List.replicate 1024 FieldBit.one).length ≤ (port []).maxMsgBits := by
  rw [List.length_replicate, List.length_replicate]
  refine ⟨?_, ?_, ?_, (fun h => nomatch h), ?_, ?_⟩ <;> decide
/-- One operand at each limit: the largest index that is taken and the first that is not, a message
at the capacity and one past it. -/
theorem witness_InitChecksInOrder_limits :
    (2 ^ 64 - 1 < 2 ^ 64 ∧ 2 ^ 64 ≤ 2 ^ 64) ∧
      (List.replicate 512 FieldBit.one).length ≤ { port [] with maxMsgBits := 512 }.maxMsgBits ∧
      { port [] with maxMsgBits := 512 }.maxMsgBits < (List.replicate 513 FieldBit.one).length := by
  rw [List.length_replicate, List.length_replicate]
  refine ⟨?_, ?_, ?_⟩ <;> decide
/-- R180: a DINIT of 2^64 bits or more is an IllegalCommand, though the capacity after reset is
larger. -/
theorem test_dinit_length_limit (p : List FieldBit) (h : 2 ^ 64 ≤ p.length) :
    exec (.dInit false) (port (ofInit { message := p, index := 0, prior := none })) =
      fail (port (ofInit { message := p, index := 0, prior := none })) .illegalCommand := by
  have hi : initOf false [] (ofInit { message := p, index := 0, prior := none }) =
      some { message := p, index := 0, prior := none } := initOf_eq.2 ⟨rfl, Nat.two_pow_pos 64, rfl⟩
  have hf : payloadFits (port []).maxMsgBits p.length = false := by
    simp [payloadFits]; omega
  simp only [exec, execDInit, port, hi]
  exact if_neg (by simpa [port] using hf)
theorem witness_InitChecksInOrder :
    (List.replicate 500 FieldBit.one).length % 512 ≠ 0 ∧
      (List.replicate 512 FieldBit.one).length % 512 = 0 ∧
      (List.replicate 512 FieldBit.one).length / 512 ≤ 1 ∧ (1 : Nat) ≠ 0 := by
  rw [List.length_replicate, List.length_replicate]
  refine ⟨?_, ?_, ?_, ?_⟩ <;> decide
theorem ctx_inv_initialized : StateInv (ctx 2 1 .initialized) :=
  ctx_inv (by decide) (by decide) (by decide) (by decide) (by decide)
theorem ctx_inv_advanced : StateInv (ctx 2 1 .advanced) :=
  ctx_inv (by decide) (by decide) (by decide) (by decide) (by decide)
theorem ctx_inv_terminal : StateInv (ctx 2 2 .advanced) :=
  ctx_inv (by decide) (by decide) (by decide) (by decide) (by decide)
theorem witness_StepConsumesOneBlock : (ctx 2 1 .initialized).payload = [] ∧
    (ctx 2 1 .initialized).phase ≠ .empty ∧ (ctx 2 1 .initialized).idx < (ctx 2 1 .initialized).nblk ∧
    512 * (ctx 2 1 .initialized).idx + 512 ≤ (ctx 2 1 .initialized).msg.length := by
  refine ⟨rfl, by decide, by decide, ?_⟩
  rw [ctx_length]
  decide
theorem witness_StepRefusedWithoutBlock : State.reset.phase = .empty ∧
    (ctx 2 2 .advanced).nblk ≤ (ctx 2 2 .advanced).idx ∧ (ctx 2 2 .advanced).payload = [] :=
  ⟨rfl, Nat.le_refl 2, rfl⟩
theorem witness_StatusReported : State.reset.payload = [] := rfl
theorem witness_DropDiscardsContext : (ctx 2 1 .advanced).payload = [] ∧
    (ctx 2 1 .advanced).phase ≠ .empty ∧ State.reset.phase = .empty := by
  refine ⟨rfl, ?_, rfl⟩
  decide
theorem witness_DynamicAgreesWithNative :
    (port (ofInit { message := pad (toBits []), index := 0, prior := none })).payload =
      ofInit { message := pad (toBits []), index := 0, prior := none } ∧
    (pad (toBits [])).length < 2 ^ 64 ∧ (pad (toBits [])).length ≤ (port []).maxMsgBits := by
  refine ⟨rfl, ?_⟩
  rw [pad_length]
  decide
theorem witness_ResumeFromCheckpoint : StateInv (ctx 2 1 .advanced) ∧ (ctx 2 1 .advanced).payload = [] ∧
    0 < (ctx 2 1 .advanced).idx ∧ (ctx 2 1 .advanced).idx < (ctx 2 1 .advanced).nblk ∧
    (ctx 2 1 .advanced).msg.length ≤ (port []).maxMsgBits := by
  refine ⟨ctx_inv_advanced, rfl, by decide, by decide, ?_⟩
  rw [ctx_length]
  decide
theorem witness_AcceptsExactlyRemainingBlocks : StateInv (ctx 2 2 .advanced) ∧
    StateInv (ctx 2 1 .initialized) ∧ (ctx 2 2 .advanced).payload = [] ∧
    (ctx 2 2 .advanced).phase ≠ .empty := by
  refine ⟨ctx_inv_terminal, ctx_inv_initialized, rfl, ?_⟩
  decide
theorem witness_ContextStateMachine :
    (∃ t, exec .dStat (ctx 2 1 .initialized) = .next t ∧ t.response.map Response.status = some .ok) ∧
      ∃ t, exec .dStep (port []) = .next t ∧ t.response = err .configurationError :=
  ⟨⟨_, rfl, rfl⟩, ⟨_, rfl, rfl⟩⟩
theorem witness_ErrorsChangeOnlyTheLog : ∃ t, exec .hexToBits (port (ofChars [0x61])) = .next t ∧
    t.response = some { status := .error .formatError, payload := [] } := ⟨_, rfl, rfl⟩
theorem witness_RetryRepeatsError : ∃ t, exec .dStep (port []) = .next t ∧
    EndsWithError .configurationError (port []) t :=
  ⟨_, rfl, rfl, rfl, ⟨rfl, rfl, rfl, rfl, rfl, rfl⟩, ⟨rfl, rfl⟩, rfl, rfl⟩
theorem witness_ErrorLogSticky : ∃ t, step (present 0x5100 []) = .next t ∧
    t.errlog ≠ (present 0x5100 []).errlog := ⟨_, rfl, by decide⟩
theorem witness_PureCommandsKeepContext : pureGroup .hash = true ∧
    ∃ t, exec .hash (port []) = .next t := ⟨rfl, _, rfl⟩
theorem witness_InvariantKept : StateInv (ctx 2 1 .initialized) ∧
    ∃ t, step (ctx 2 1 .initialized) = .next t := ⟨ctx_inv_initialized, _, rfl⟩
theorem witness_EveryCommandAnswered : StateInv (ctx 2 2 .advanced) := ctx_inv_terminal
theorem witness_TerminalOnlyWhenAdvanced : StateInv (ctx 2 2 .advanced) ∧
    terminal (ctx 2 2 .advanced) = true := ⟨ctx_inv_terminal, by decide⟩
theorem witness_EmptyContextUnobservable : (port []).phase = .empty ∧
    ({ port [] with hs := romHAll, idx := 5, nblk := 9, msg := [.one] } : State).phase = .empty :=
  ⟨rfl, rfl⟩
theorem witness_DatapathUnobservable : ∃ t, exec .compress (port (List.replicate 24 (w 0))) = .next t :=
  ⟨_, rfl⟩

end Sys2Proof.Tests
end

/-! Proofs of 00_scope.md: the step on a legal command word (R6), and the block in field operations
alone (R5, R8, R141). -/

namespace Sys2Proof.Machine

/-- Settles O5, since the next command is the head of the queue and its word decodes to `i`. -/
theorem stepRunsDecoded : Obligations.StepRunsDecoded := by
  unfold Obligations.StepRunsDecoded
  intro s c rest i hp hd
  simp only [step, nextCommand_cons hp, hd]

section FieldForms

variable (F : Type) [Field F]

/-! ### FieldBits: the truth tables are the field forms on embedded values -/

@[simp] theorem embed_zero : embed F .zero = 0 := rfl

@[simp] theorem embed_one : embed F .one = 1 := rfl

theorem embed_fbAnd (a b : FieldBit) : embed F (fbAnd a b) = andForm (embed F a) (embed F b) := by
  cases a <;> cases b <;> simp [fbAnd, andForm]

theorem embed_fbXor (a b : FieldBit) : embed F (fbXor a b) = xorForm (embed F a) (embed F b) := by
  cases a <;> cases b <;> norm_num [fbXor, xorForm]

theorem embed_fbNot (a : FieldBit) : embed F (fbNot a) = notForm (embed F a) := by
  cases a <;> simp [fbNot, notForm]

/-- The sum is two XORs, and so is its polynomial. -/
theorem embed_fbSum (a b c : FieldBit) :
    embed F (fbSum a b c) = sumForm (embed F a) (embed F b) (embed F c) := by
  simp only [fbSum, embed_fbXor, xorForm, sumForm]
  ring

/-- The carry's polynomial equals the three ANDs under two XORs on `0_F` and `1_F` only. -/
theorem embed_fbCarry (a b c : FieldBit) :
    embed F (fbCarry a b c) = carryForm (embed F a) (embed F b) (embed F c) := by
  cases a <;> cases b <;> cases c <;> norm_num [fbCarry, fbXor, fbAnd, carryForm]

/-! ### Words: an operation on embedded words is the embedding of its result -/

@[simp] theorem embedWord_get (x : Word32) (i : Nat) (h : i < 32) :
    (embedWord F x)[i] = embed F x[i] := by simp [embedWord]

theorem embedWord_toList (x : Word32) : (embedWord F x).toList = x.toList.map (embed F) := by
  apply List.ext_getElem <;> simp

theorem embedWord_zero : embedWord F Word32.zero = Vector.replicate 32 0 := by
  ext i hi
  simp [Word32.zero]

theorem fLanes_xorForm (x y : Word32) :
    fLanes xorForm (embedWord F x) (embedWord F y) = embedWord F (wXor x y) := by
  ext i hi
  simp [fLanes, embed_fbXor]

theorem fLanes_andForm (x y : Word32) :
    fLanes andForm (embedWord F x) (embedWord F y) = embedWord F (wAnd x y) := by
  ext i hi
  simp [fLanes, embed_fbAnd]

theorem fLanes1_notForm (x : Word32) :
    fLanes1 notForm (embedWord F x) = embedWord F (wNot x) := by
  ext i hi
  simp [fLanes1, embed_fbNot]

theorem fRotate_embedWord (x : Word32) (n : Nat) :
    fRotate (embedWord F x) n = embedWord F (rotr x n) := by
  ext i hi
  simp [fRotate, rotr_get]

theorem fShift_embedWord (x : Word32) (n : Nat) :
    fShift (embedWord F x) n = embedWord F (shr x n) := by
  ext i hi
  simp only [fShift, Vector.getElem_ofFn, embedWord_get, shr_get]
  split <;> rfl

/-- The ripple of R107 in field operations, sum elements and carry together. -/
theorem fRipple_embed : ∀ as bs : List FieldBit,
    fRipple (as.map (embed F)) (bs.map (embed F)) =
      ((ripple as bs).1.map (embed F), embed F (ripple as bs).2)
  | a :: as, b :: bs => by
    simp [fRipple, ripple, fRipple_embed as bs, embed_fbSum, embed_fbCarry]
  | [], _ => by simp [fRipple, ripple]
  | _ :: _, [] => by simp [fRipple, ripple]

theorem fAdd2_embedWord (x y : Word32) :
    fAdd2 (embedWord F x) (embedWord F y) = embedWord F (add2 x y) := by
  ext i hi
  have hl : i < (ripple x.toList y.toList).1.length := by
    simpa [ripple_length x.toList y.toList (by simp)] using hi
  simp [fAdd2, embedWord_toList, fRipple_embed, add2, hl]

theorem fAdd32_embedWord (x : Word32) (ys : List Word32) :
    fAdd32 (embedWord F x) (ys.map (embedWord F)) = embedWord F (add32 x ys) := by
  rw [fAdd32, add32, List.foldl_map]
  exact List.foldl_hom (embedWord F) fun x y => fAdd2_embedWord F x y

/-- `add32` of two words, as a round and the final addition use it. -/
theorem fAdd32_embedWord_pair (x y : Word32) :
    fAdd32 (embedWord F x) [embedWord F y] = embedWord F (add32 x [y]) :=
  fAdd32_embedWord F x [y]

/-! ### The six word functions (R130 to R135) -/

theorem fSSigma0_embedWord (x : Word32) :
    fSSigma0 (embedWord F x) = embedWord F (sSigma0 x) := by
  simp only [fSSigma0, sSigma0, fRotate_embedWord, fShift_embedWord, fLanes_xorForm]

theorem fSSigma1_embedWord (x : Word32) :
    fSSigma1 (embedWord F x) = embedWord F (sSigma1 x) := by
  simp only [fSSigma1, sSigma1, fRotate_embedWord, fShift_embedWord, fLanes_xorForm]

theorem fBSigma0_embedWord (x : Word32) :
    fBSigma0 (embedWord F x) = embedWord F (bSigma0 x) := by
  simp only [fBSigma0, bSigma0, fRotate_embedWord, fLanes_xorForm]

theorem fBSigma1_embedWord (x : Word32) :
    fBSigma1 (embedWord F x) = embedWord F (bSigma1 x) := by
  simp only [fBSigma1, bSigma1, fRotate_embedWord, fLanes_xorForm]

theorem fCh_embedWord (e f g : Word32) :
    fCh (embedWord F e) (embedWord F f) (embedWord F g) = embedWord F (chWord e f g) := by
  simp only [fCh, chWord, fLanes1_notForm, fLanes_andForm, fLanes_xorForm]

theorem fMaj_embedWord (a b c : Word32) :
    fMaj (embedWord F a) (embedWord F b) (embedWord F c) = embedWord F (majWord a b c) := by
  simp only [fMaj, majWord, fLanes_andForm, fLanes_xorForm]

/-! ### The schedule, a round, a block (R136 to R138) -/

@[simp] theorem embedWords_get {n : Nat} (v : Vector Word32 n) (i : Nat) (h : i < n) :
    (embedWords F v)[i] = embedWord F v[i] := by simp [embedWords]

theorem embedWords_set {n : Nat} (v : Vector Word32 n) (i : Nat) (h : i < n) (x : Word32) :
    embedWords F (v.set i x h) = (embedWords F v).set i (embedWord F x) h := by
  ext1 j hj
  simp only [embedWords_get, Vector.getElem_set]
  split <;> simp

theorem fSchedTerm_embedWords (w : Vector Word32 64) (t : Fin 64) :
    fSchedTerm (embedWords F w) t = embedWord F (schedTerm w t) := by
  simp only [fSchedTerm, schedTerm, embedWords_get, fSSigma0_embedWord, fSSigma1_embedWord]
  exact fAdd32_embedWord F _ [_, _, _]

theorem embedWords_schedStep (w : Vector Word32 64) (t : Fin 64) :
    embedWords F (schedStep w t) =
      (embedWords F w).set t.val (fSchedTerm (embedWords F w) t) t.isLt := by
  rw [schedStep, embedWords_set, fSchedTerm_embedWords]

/-- The schedule before its recurrence runs. -/
theorem embedWords_loadBlock_zero (m : Vector Word32 16) :
    (Vector.ofFn fun t : Fin 64 =>
        if h : t.val < 16 then (embedWords F m)[t.val] else Vector.replicate 32 0) =
      embedWords F (loadBlock (Vector.replicate 64 Word32.zero) m) := by
  ext1 i hi
  simp only [Vector.getElem_ofFn, embedWords_get, loadBlock]
  split
  · rfl
  · simp [embedWord_zero]

theorem fSchedule_embedWords (m : Vector Word32 16) :
    fSchedule (embedWords F m) = embedWords F (schedule m) := by
  rw [fSchedule, embedWords_loadBlock_zero, schedule]
  exact List.foldl_hom (embedWords F) fun w t => (embedWords_schedStep F w t).symm

/-- `temp1` of R137 in field operations. -/
theorem fTemp1_embedWord (t : Fin 64) (wr : Vector Word32 8) (wt : Word32) :
    fAdd32 (embedWord F wr[7])
        [fBSigma1 (embedWord F wr[4]),
         fCh (embedWord F wr[4]) (embedWord F wr[5]) (embedWord F wr[6]),
         embedWord F (romK t), embedWord F wt] =
      embedWord F (temp1 t wr wt) := by
  rw [fBSigma1_embedWord, fCh_embedWord]
  exact fAdd32_embedWord F _ [_, _, _, _]

/-- `temp2` of R137 in field operations. -/
theorem fTemp2_embedWord (wr : Vector Word32 8) :
    fAdd32 (fBSigma0 (embedWord F wr[0]))
        [fMaj (embedWord F wr[0]) (embedWord F wr[1]) (embedWord F wr[2])] =
      embedWord F (temp2 wr) := by
  rw [fBSigma0_embedWord, fMaj_embedWord]
  exact fAdd32_embedWord_pair F _ _

theorem fRoundStep_embedWords (t : Fin 64) (wr : Vector Word32 8) (wt : Word32) :
    fRoundStep t (embedWords F wr) (embedWord F wt) = embedWords F (roundStep t wr wt) := by
  simp only [fRoundStep, embedWords_get, fTemp1_embedWord, fTemp2_embedWord,
    fAdd32_embedWord_pair]
  ext1 i hi
  simp only [embedWords_get, roundStep]
  match i, hi with
  | 0, _ | 1, _ | 2, _ | 3, _ | 4, _ | 5, _ | 6, _ | 7, _ => rfl

/-- The 64 rounds over a schedule of embedded words. -/
theorem foldl_fRoundStep_embedWords (w : Vector Word32 64) (st : Vector Word32 8) :
    (List.finRange 64).foldl (fun wr t => fRoundStep t wr (embedWords F w)[t]) (embedWords F st) =
      embedWords F ((List.finRange 64).foldl (fun wr t => roundStep t wr w[t]) st) := by
  refine List.foldl_hom (embedWords F) fun wr t => ?_
  rw [Fin.getElem_fin, embedWords_get]
  exact fRoundStep_embedWords F t wr w[t]

theorem fCompress_embedWords (st : Vector Word32 8) (m : Vector Word32 16) :
    fCompress (embedWords F st) (embedWords F m) = embedWords F (compress st m) := by
  simp only [fCompress, fSchedule_embedWords, foldl_fRoundStep_embedWords]
  ext1 i hi
  simp [compress, finalAdd, fAdd32_embedWord_pair]

end FieldForms

/-- Settles O35: every operation of the compression in field operations takes embedded words to the
embedding of the machine's result, and the schedule and the rounds are folds of such operations. -/
theorem fieldOnlyCompression : Obligations.FieldOnlyCompression := by
  unfold Obligations.FieldOnlyCompression
  intro F _ st m
  exact fCompress_embedWords F st m

end Sys2Proof.Machine

/-! Proofs of 10_state.md: the invariant (R16, R18, R19), the context's state machine (R16, R17), the
error log (R20), and what no response depends on (R21, R23, R24). -/

namespace Sys2Proof.Machine

/-! ### What a step and a command leave, field group by field group -/

/-- A step with no command is the state itself; any other ends as its command can end, in the state
in which the command has left the queue and its payload stands on the port. -/
theorem step_cases {s t : State} (h : step s = .next t) :
    (s.pending = [] ∧ t = s) ∨ ∃ c rest, s.pending = c :: rest ∧
      Ends { s with pending := rest, payload := c.payload } t := by
  cases hp : s.pending with
  | nil =>
    simp only [step, nextCommand_nil hp, idle, Host.Outcome.next.injEq] at h
    exact .inl ⟨rfl, h.symm⟩
  | cons c rest =>
    refine .inr ⟨c, rest, rfl, ?_⟩
    simp only [step, nextCommand_cons hp] at h
    split at h
    · exact exec_ends h
    · exact ends_fail h

/-- A command that ends leaves ERRLOG, or ends with an error. -/
theorem ends_errlog {s t : State} (h : Ends s t) : t.errlog = s.errlog ∨ ∃ k, t = s.raise k := by
  cases h with
  | error k => exact .inr ⟨k, rfl⟩
  | pure out => exact .inl rfl
  | computed out => exact .inl rfl
  | init o => exact .inl rfl
  | stepped => exact .inl rfl
  | dropped => exact .inl (dropContext_errlog s)

theorem ends_maxMsgBits {s t : State} (h : Ends s t) : t.maxMsgBits = s.maxMsgBits := by
  cases h <;> simp

theorem sameContext_respond (s : State) (st : Status) (out : List Item) :
    SameContext s (s.respond st out) := ⟨rfl, rfl, rfl, rfl, rfl, rfl⟩

theorem sameContext_releaseDatapath (s : State) : SameContext s s.releaseDatapath :=
  ⟨rfl, rfl, rfl, rfl, rfl, rfl⟩

theorem sameContext_raise (s : State) (k : ErrorKind) : SameContext s (s.raise k) :=
  ⟨rfl, rfl, rfl, rfl, rfl, rfl⟩

theorem endsWithError_raise (s : State) (k : ErrorKind) : EndsWithError k s (s.raise k) :=
  ⟨rfl, rfl, sameContext_raise s k, ⟨rfl, rfl⟩, rfl, rfl⟩

theorem next_unique {r : Result} {t u : State} (ht : r = .next t) (hu : r = .next u) : u = t :=
  Host.Outcome.next.inj (hu.symm.trans ht)

/-! ### The invariant -/

/-- The invariant speaks of the context and the capacity only. -/
theorem StateInv.of_sameContext {s t : State} (h : StateInv s) (e : SameContext s t) :
    StateInv t where
  aligned := by rw [e.msg, e.nblk]; exact h.aligned
  idx_le := by rw [e.idx, e.nblk]; exact h.idx_le
  fits := by rw [e.msg, e.capacity]; exact h.fits
  below_limit := by rw [e.msg]; exact h.below_limit
  empty_zero := by rw [e.phase, e.nblk]; exact h.empty_zero
  initialized_lt := by rw [e.phase, e.idx, e.nblk]; exact h.initialized_lt
  advanced_pos := by rw [e.phase, e.idx]; exact h.advanced_pos
  capacity_blocks := by rw [e.capacity]; exact h.capacity_blocks
  capacity_limit := by rw [e.capacity]; exact h.capacity_limit

/-- DINIT's checks are the invariant's clauses on the context it constructs (R161, R162). -/
theorem StateInv.initContext {s : State} (h : StateInv s) {o : InitOperands}
    (lt : o.message.length < 2 ^ 64) (cap : o.message.length ≤ s.maxMsgBits)
    (ok : initError o = none) : StateInv (initContext o s) := by
  obtain ⟨hal, -, hidx⟩ := initError_none.1 ok
  exact {
    aligned := by simp; omega
    idx_le := hidx.le
    fits := cap
    below_limit := lt
    empty_zero := nofun
    initialized_lt := fun _ => hidx
    advanced_pos := nofun
    capacity_blocks := h.capacity_blocks
    capacity_limit := h.capacity_limit }

/-- DSTEP moves IDX up by one where a block is left (R163). -/
theorem StateInv.advance {s : State} (h : StateInv s) (lt : s.idx < s.nblk)
    (m : Vector Word32 16) : StateInv (advance m s) where
  aligned := h.aligned
  idx_le := lt
  fits := h.fits
  below_limit := h.below_limit
  empty_zero := nofun
  initialized_lt := nofun
  advanced_pos := fun _ => Nat.succ_pos _
  capacity_blocks := h.capacity_blocks
  capacity_limit := h.capacity_limit

/-- DDROP leaves no context, or the state as it was (R168). -/
theorem StateInv.dropContext {s : State} (h : StateInv s) : StateInv (dropContext s) := by
  by_cases hp : s.phase = .empty
  · rwa [dropContext_empty hp]
  · rw [dropContext_of_ne hp]
    exact {
      aligned := rfl
      idx_le := le_rfl
      fits := Nat.zero_le _
      below_limit := by simp
      empty_zero := fun _ => rfl
      initialized_lt := nofun
      advanced_pos := nofun
      capacity_blocks := h.capacity_blocks
      capacity_limit := h.capacity_limit }

/-- Every way a command ends keeps the invariant. -/
theorem StateInv.of_ends {s t : State} (h : StateInv s) (e : Ends s t) : StateInv t := by
  cases e with
  | pure out => exact h.of_sameContext (sameContext_respond _ _ _)
  | computed out =>
    exact (h.of_sameContext (sameContext_releaseDatapath s)).of_sameContext
      (sameContext_respond _ _ _)
  | error k => exact h.of_sameContext (sameContext_raise _ _)
  | init o lt cap ok =>
    exact (h.initContext lt cap ok).of_sameContext (sameContext_respond _ _ _)
  | stepped ctx lt inside =>
    exact ((h.advance lt _).of_sameContext (sameContext_releaseDatapath _)).of_sameContext
      (sameContext_respond _ _ _)
  | dropped => exact h.dropContext.of_sameContext (sameContext_respond _ _ _)

/-- Settles O56, by the ways a step can end: each keeps the invariant and the capacity. -/
theorem invariantKept : Obligations.InvariantKept := by
  unfold Obligations.InvariantKept
  intro s t hs h
  obtain ⟨-, rfl⟩ | ⟨c, rest, -, he⟩ := step_cases h
  · exact ⟨hs, rfl⟩
  · have hport : StateInv { s with pending := rest, payload := c.payload } :=
      hs.of_sameContext ⟨rfl, rfl, rfl, rfl, rfl, rfl⟩
    have hcap := ends_maxMsgBits he
    exact ⟨hport.of_ends he, hcap⟩

/-- Settles O55: every clause is a closed fact about the reset values. -/
theorem invariantAtReset : Obligations.InvariantAtReset where
  aligned := rfl
  idx_le := le_rfl
  fits := Nat.zero_le _
  below_limit := by decide
  empty_zero := fun _ => rfl
  initialized_lt := nofun
  advanced_pos := nofun
  capacity_blocks := by decide
  capacity_limit := le_rfl

/-- TERMINAL, as R19 words it. -/
theorem terminal_iff {s : State} : terminal s = true ↔ s.phase ≠ .empty ∧ s.idx = s.nblk := by
  unfold terminal
  cases s.phase <;> simp

/-- Settles O58: in phase Initialized the invariant leaves a block to consume. -/
theorem terminalOnlyWhenAdvanced : Obligations.TerminalOnlyWhenAdvanced := by
  unfold Obligations.TerminalOnlyWhenAdvanced
  intro s hs ht
  obtain ⟨hne, hidx⟩ := terminal_iff.1 ht
  refine ⟨?_, hidx⟩
  cases hp : s.phase with
  | empty => exact absurd hp hne
  | initialized => exact absurd hidx (hs.initialized_lt hp).ne
  | advanced => rfl

/-! ### The error log and the idle step -/

/-- Settles O7: no command is presented. -/
theorem stepWaitsWithNoCommand : Obligations.StepWaitsWithNoCommand := by
  unfold Obligations.StepWaitsWithNoCommand
  intro s hp
  simp only [step, nextCommand_nil hp, idle]

/-- Settles O52: ERRLOG changes only where `raise` writes it, and there a bit is joined to it. -/
theorem errorLogSticky : Obligations.ErrorLogSticky := by
  unfold Obligations.ErrorLogSticky
  intro s t h
  obtain ⟨-, rfl⟩ | ⟨c, rest, -, he⟩ := step_cases h
  · exact ⟨fun _ hb => hb, fun hne => absurd rfl hne⟩
  · obtain hlog | ⟨k, rfl⟩ := ends_errlog he
    · exact ⟨fun b hb => by rw [hlog]; exact hb, fun hne => absurd hlog hne⟩
    · refine ⟨fun b hb => ?_, fun _ => ⟨k, rfl, rfl⟩⟩
      simp [hb]

/-! ### The reset values, STATUS, and the type FieldBit -/

theorem val_romH (i : Fin 8) : val (romH i) = romHHex[i] := by
  have hlt : ∀ i : Fin 8, romHHex[i] < 2 ^ 32 := by decide
  rw [romH, val_word, Nat.mod_eq_of_lt (hlt i)]

theorem val_romK (t : Fin 64) : val (romK t) = romKHex[t] := by
  rw [romK, val_word]
  simp [romKHex]

/-- Settles O54: the registers by their reset values, the ROM because a table entry is below
`2 ^ 32`. -/
theorem resetState : Obligations.ResetState := by
  unfold Obligations.ResetState
  exact ⟨rfl, rfl, rfl, rfl, rfl, by decide, val_romH, val_romK⟩

theorem toSubtype_val (F : Type) [Field F] (e : FieldBit) : (toSubtype F e).val = embed F e := by
  cases e <;> rfl

theorem embed_injective (F : Type) [Field F] : Function.Injective (embed F) := by
  intro a b h
  cases a <;> cases b <;> simp_all

/-- Settles O12: `0_F` and `1_F` are distinct, and each is reached. -/
theorem fieldBitIsSubtype : Obligations.FieldBitIsSubtype := by
  unfold Obligations.FieldBitIsSubtype
  intro F _
  refine ⟨⟨fun a b h => embed_injective F ?_, ?_⟩, toSubtype_val F, by simp, beta_bitVal⟩
  · rw [← toSubtype_val, ← toSubtype_val, h]
  · rintro ⟨e, rfl | rfl⟩
    · exact ⟨.zero, rfl⟩
    · exact ⟨.one, rfl⟩

/-- The five fields of STATUS one above the other (R29). -/
theorem statusWord_getLsbD (s : State) (i : Nat) : (statusWord s).getLsbD i =
    if i < 2 then s.phase.code.getLsbD i
    else if i < 3 then (BitVec.ofBool (terminal s)).getLsbD (i - 2)
    else if i < 8 then false
    else s.errlog.getLsbD (i - 8) := by
  rw [statusWord, BitVec.getLsbD_append, BitVec.getLsbD_append, BitVec.getLsbD_append,
    BitVec.getLsbD_append]
  simp only [BitVec.getLsbD_zero, Nat.sub_sub]
  grind

theorem statusWord_phase (s : State) : (statusWord s).extractLsb' 0 2 = s.phase.code := by
  ext i hi
  simp [statusWord_getLsbD, hi]

theorem statusWord_terminal (s : State) : (statusWord s).getLsbD 2 = terminal s := by
  rw [statusWord_getLsbD, if_neg (by decide), if_pos (by decide)]
  simp

theorem statusWord_reservedLow (s : State) : (statusWord s).extractLsb' 3 5 = 0 := by
  ext i hi
  rw [BitVec.getElem_extractLsb', statusWord_getLsbD, if_neg (by omega), if_neg (by omega),
    if_pos (by omega)]
  simp

theorem statusWord_errlog (s : State) : (statusWord s).extractLsb' 8 4 = s.errlog := by
  ext i hi
  rw [BitVec.getElem_extractLsb', statusWord_getLsbD, if_neg (by omega), if_neg (by omega),
    if_neg (by omega), Nat.add_sub_cancel_left, BitVec.getLsbD_eq_getElem]

theorem statusWord_reservedHigh (s : State) : (statusWord s).extractLsb' 12 20 = 0 := by
  ext i hi
  rw [BitVec.getElem_extractLsb', statusWord_getLsbD, if_neg (by omega), if_neg (by omega),
    if_neg (by omega), BitVec.getLsbD_of_ge _ _ (by omega)]
  simp

theorem Phase.code_toNat (ph : Phase) :
    ph.code.toNat = if ph = .empty then 0 else if ph = .initialized then 1 else 2 := by
  cases ph <;> rfl

/-- A counter reads 0 in phase Empty (R21). -/
theorem readCounter_eq (s : State) (n : Nat) :
    readCounter s n = if s.phase = .empty then 0 else n := by
  unfold readCounter
  cases s.phase <;> rfl

/-- Settles O44: DSTAT completes with `statusWord`, whose fields are read back one by one. -/
theorem statusReported : Obligations.StatusReported := by
  unfold Obligations.StatusReported
  intro s hp
  refine ⟨statusWord s, _, onNone_of _ hp, ?_, ?_, ?_, statusWord_reservedLow s,
    statusWord_errlog s, statusWord_reservedHigh s⟩
  · rw [← readCounter_eq, ← readCounter_eq]
    exact ⟨⟨rfl, rfl, sameContext_respond _ _ _, rfl, rfl⟩, ⟨rfl, rfl⟩⟩
  · rw [statusWord_phase, Phase.code_toNat]
  · rw [statusWord_terminal, terminal_iff]


/-! ### Commands that leave the context

What such a command does is fixed by an `Answer`: its payload or its error, and whether it used the
datapath. The answer is found from the port's payload and the capacity alone, so two states that
agree on these get the same one. -/

/-- The answer of a command that leaves the context. -/
inductive Answer where
  /-- a result; only the ports are written -/
  | pure (out : List Item)
  /-- a result computed on the datapath -/
  | computed (out : List Item)
  /-- an error (R183) -/
  | error (k : ErrorKind)

/-- The response of an answer. -/
def Answer.response : Answer → Response
  | .pure out => { status := .ok, payload := out }
  | .computed out => { status := .ok, payload := out }
  | .error k => { status := .error k, payload := [] }

/-- The state an answer leaves. -/
def Answer.after (s : State) : Answer → State
  | .pure out => s.respond .ok out
  | .computed out => s.releaseDatapath.respond .ok out
  | .error k => s.raise k

theorem Answer.after_response (s : State) (a : Answer) :
    (a.after s).response = some a.response := by
  cases a <;> rfl

theorem Answer.after_sameContext (s : State) (a : Answer) : SameContext s (a.after s) := by
  cases a with
  | pure out => exact sameContext_respond _ _ _
  | computed out => exact ⟨rfl, rfl, rfl, rfl, rfl, rfl⟩
  | error k => exact sameContext_raise _ _

theorem Answer.after_pending (s : State) (a : Answer) : (a.after s).pending = s.pending := by
  cases a <;> rfl

theorem Answer.after_errlog (s : State) (a : Answer) :
    (a.after s).errlog = s.errlog ∨ ∃ k, EndsWithError k s (a.after s) := by
  cases a with
  | pure out => exact .inl rfl
  | computed out => exact .inl rfl
  | error k => exact .inr ⟨k, endsWithError_raise s k⟩

theorem Answer.after_errlog_congr {s s' : State} (h : s'.errlog = s.errlog) (a : Answer) :
    (a.after s').errlog = (a.after s).errlog := by
  cases a with
  | pure out => exact h
  | computed out => exact h
  | error k => exact congrArg (· ||| k.logBit) h

/-- Two results are one answer, each in its own state. -/
def SameAnswer (s s' : State) (r r' : Result) : Prop :=
  ∃ a : Answer, r = .next (a.after s) ∧ r' = .next (a.after s')

section Pairs

variable {s s' : State}

theorem sameAnswer_complete (out : List Item) :
    SameAnswer s s' (complete s out) (complete s' out) := ⟨.pure out, rfl, rfl⟩

theorem sameAnswer_computed (out : List Item) :
    SameAnswer s s' (complete s.releaseDatapath out) (complete s'.releaseDatapath out) :=
  ⟨.computed out, rfl, rfl⟩

theorem sameAnswer_fail (k : ErrorKind) : SameAnswer s s' (fail s k) (fail s' k) :=
  ⟨.error k, rfl, rfl⟩

/-- A check on which both states agree (R68 d, R69). -/
theorem sameAnswer_check (b : Bool) {r r' : Result} (h : SameAnswer s s' r r') :
    SameAnswer s s' (if b then r else fail s .illegalCommand)
      (if b then r' else fail s' .illegalCommand) := by
  cases b with
  | false => exact sameAnswer_fail _
  | true => exact h

variable (hp : s'.payload = s.payload)

section Port

include hp

theorem sameAnswer_onWords {k : Nat} {f f' : Vector Word32 k → Result}
    (hf : ∀ v, SameAnswer s s' (f v) (f' v)) :
    SameAnswer s s' (onWords k s f) (onWords k s' f') := by
  rw [onWords, onWords, hp]
  cases wordsOf k s.payload with
  | none => exact sameAnswer_fail _
  | some v => exact hf v

theorem sameAnswer_onNone {r r' : Result} (h : SameAnswer s s' r r') :
    SameAnswer s s' (onNone s r) (onNone s' r') := by
  rw [onNone, onNone, hp]
  exact sameAnswer_check _ h

theorem sameAnswer_fAdd (k : Fin 8) : SameAnswer s s' (execFAdd k s) (execFAdd k s') :=
  sameAnswer_check _ (sameAnswer_onWords hp fun _ => sameAnswer_complete _)

/-- DSTAT reads the state only through STATUS and the counters (R167). -/
theorem sameAnswer_dStat (hst : statusWord s' = statusWord s)
    (hidx : readCounter s' s'.idx = readCounter s s.idx)
    (hnblk : readCounter s' s'.nblk = readCounter s s.nblk) :
    SameAnswer s s' (execDStat s) (execDStat s') := by
  rw [execDStat, execDStat, hst, hidx, hnblk]
  exact sameAnswer_onNone hp (sameAnswer_complete _)

end Port

variable (hc : s'.maxMsgBits = s.maxMsgBits)

include hp hc

theorem sameAnswer_toBits : SameAnswer s s' (execToBits s) (execToBits s') := by
  rw [execToBits, execToBits, hp, hc]
  cases bytesOf s.payload with
  | none => exact sameAnswer_fail _
  | some m => exact sameAnswer_check _ (sameAnswer_complete _)

theorem sameAnswer_hexToBits : SameAnswer s s' (execHexToBits s) (execHexToBits s') := by
  rw [execHexToBits, execHexToBits, hp, hc]
  cases charsOf s.payload with
  | none => exact sameAnswer_fail _
  | some cs =>
    refine sameAnswer_check _ ?_
    cases hexToBits cs with
    | none => exact sameAnswer_fail _
    | some bs => exact sameAnswer_complete _

theorem sameAnswer_bitsToHex : SameAnswer s s' (execBitsToHex s) (execBitsToHex s') := by
  rw [execBitsToHex, execBitsToHex, hp, hc]
  cases bitsOf s.payload with
  | none => exact sameAnswer_fail _
  | some bs =>
    refine sameAnswer_check _ ?_
    cases bitsToHex bs with
    | none => exact sameAnswer_fail _
    | some cs => exact sameAnswer_complete _

theorem sameAnswer_pad : SameAnswer s s' (execPad s) (execPad s') := by
  rw [execPad, execPad, hp, hc]
  cases bitsOf s.payload with
  | none => exact sameAnswer_fail _
  | some m => exact sameAnswer_check _ (sameAnswer_complete _)

theorem sameAnswer_hash : SameAnswer s s' (execHash s) (execHash s') := by
  rw [execHash, execHash, hp, hc]
  cases bytesOf s.payload with
  | none => exact sameAnswer_fail _
  | some m => exact sameAnswer_check _ (sameAnswer_computed _)

theorem sameAnswer_hashX : SameAnswer s s' (execHashX s) (execHashX s') := by
  rw [execHashX, execHashX, hp, hc]
  cases charsOf s.payload with
  | none => exact sameAnswer_fail _
  | some cs =>
    refine sameAnswer_check _ ?_
    cases hexToBits cs with
    | none => exact sameAnswer_fail _
    | some b => exact sameAnswer_computed _

/-- A command of groups 0x0_ to 0x4_ is answered from its payload and the capacity alone. -/
theorem exec_sameAnswer {i : Instr} (hi : pureGroup i = true) :
    SameAnswer s s' (exec i s) (exec i s') := by
  cases i with
  | toBits => exact sameAnswer_toBits hp hc
  | hexToBits => exact sameAnswer_hexToBits hp hc
  | bitsToHex => exact sameAnswer_bitsToHex hp hc
  | pad => exact sameAnswer_pad hp hc
  | fAdd k => exact sameAnswer_fAdd hp k
  | rdH _ | rdK _ => exact sameAnswer_onNone hp (sameAnswer_complete _)
  | fAnd | fOr | fXor | fNot | fRotr _ | fShr _ =>
    exact sameAnswer_onWords hp fun _ => sameAnswer_complete _
  | sSig0 | sSig1 | bSig0 | bSig1 | ch | maj =>
    exact sameAnswer_onWords hp fun _ => sameAnswer_complete _
  | sched | round _ | compress => exact sameAnswer_onWords hp fun _ => sameAnswer_computed _
  | hash => exact sameAnswer_hash hp hc
  | hashX => exact sameAnswer_hashX hp hc
  | dInit _ | dStep | dStat | dDrop => cases hi

end Pairs

/-- Settles O53: the answer of such a command leaves the context. -/
theorem pureCommandsKeepContext : Obligations.PureCommandsKeepContext := by
  unfold Obligations.PureCommandsKeepContext
  intro i s t hi h
  obtain ⟨a, e, -⟩ := exec_sameAnswer (s := s) (s' := s) rfl rfl hi
  obtain rfl := next_unique e h
  exact ⟨a.after_sameContext s, a.after_pending s, a.after_errlog s⟩

/-! ### Commands that write the context

Each in two states at once; a pair of one state with itself gives the cases of a single run. -/

section Pairs

variable {s s' : State}

/-- DINIT's checks read the payload and the capacity alone (R161). -/
theorem dInit_pair (hp : s'.payload = s.payload) (hc : s'.maxMsgBits = s.maxMsgBits) (p : Bool) :
    (∃ k, execDInit p s = fail s k ∧ execDInit p s' = fail s' k) ∨
      ∃ o, initError o = none ∧ execDInit p s = complete (initContext o s) [] ∧
        execDInit p s' = complete (initContext o s') [] := by
  rw [execDInit, execDInit, hp, hc]
  cases initOf p [] s.payload with
  | none => exact .inl ⟨_, rfl, rfl⟩
  | some o =>
    dsimp only
    cases payloadFits s.maxMsgBits o.message.length with
    | false => exact .inl ⟨_, rfl, rfl⟩
    | true =>
      cases ho : initError o with
      | some k => exact .inl ⟨k, rfl, rfl⟩
      | none => exact .inr ⟨o, ho, rfl, rfl⟩

/-- Two results of DSTEP that agree: one error, one consumed block, or one fault. -/
def SameDStep (s s' : State) (r r' : Result) : Prop :=
  (∃ k, r = fail s k ∧ r' = fail s' k) ∨
    (∃ m, s.phase ≠ .empty ∧ s.idx < s.nblk ∧
      r = complete (advance m s).releaseDatapath (ofWords (compress s.hs m)) ∧
      r' = complete (advance m s').releaseDatapath (ofWords (compress s.hs m))) ∨
    ∃ x, r = .fault x ∧ r' = .fault x

/-- With a context DSTEP reads HS, IDX, NBLK and MSG (R163). -/
theorem sameDStep_consumeBlock (e : SameContext s s') (ctx : s.phase ≠ .empty) :
    SameDStep s s' (consumeBlock s) (consumeBlock s') := by
  rw [consumeBlock, consumeBlock, e.hs, e.idx, e.nblk, e.msg]
  by_cases hlt : s.idx ≥ s.nblk
  · rw [if_pos hlt, if_pos hlt]
    exact .inl ⟨_, rfl, rfl⟩
  · rw [if_neg hlt, if_neg hlt]
    cases Memory.readBlock s.msg s.idx with
    | none => exact .inr (.inr ⟨_, rfl, rfl⟩)
    | some m => exact .inr (.inl ⟨m, ctx, Nat.lt_of_not_ge hlt, rfl, rfl⟩)

theorem sameDStep_dStep (hp : s'.payload = s.payload) (e : SameContext s s') :
    SameDStep s s' (execDStep s) (execDStep s') := by
  rw [execDStep, execDStep, onNone, onNone, hp, e.phase]
  cases noneOf s.payload with
  | false => exact .inl ⟨_, rfl, rfl⟩
  | true =>
    cases hctx : s.phase with
    | empty => exact .inl ⟨_, rfl, rfl⟩
    | initialized => exact sameDStep_consumeBlock e (by simp [hctx])
    | advanced => exact sameDStep_consumeBlock e (by simp [hctx])

theorem dDrop_pair (hp : s'.payload = s.payload) :
    (∃ k, execDDrop s = fail s k ∧ execDDrop s' = fail s' k) ∨
      (execDDrop s = complete (dropContext s) [] ∧
        execDDrop s' = complete (dropContext s') []) := by
  rw [execDDrop, execDDrop, onNone, onNone, hp]
  cases noneOf s.payload with
  | false => exact .inl ⟨_, rfl, rfl⟩
  | true => exact .inr ⟨rfl, rfl⟩

end Pairs

/-! ### The state machine of PHASE and IDX -/

theorem sameContext_refl (s : State) : SameContext s s := ⟨rfl, rfl, rfl, rfl, rfl, rfl⟩

/-- What DINIT leaves: the state of an error, or the context of operands that passed its checks. -/
theorem dInit_next {p : Bool} {s t : State} (h : execDInit p s = .next t) :
    (∃ k, t = s.raise k) ∨
      ∃ o, initError o = none ∧ t = (initContext o s).respond .ok [] := by
  obtain ⟨k, e, -⟩ | ⟨o, ho, e, -⟩ := dInit_pair (s := s) (s' := s) rfl rfl p
  · exact .inl ⟨k, next_unique e h⟩
  · exact .inr ⟨o, ho, next_unique e h⟩

/-- What DSTEP leaves: the state of an error, or the context one block further. -/
theorem dStep_next {s t : State} (h : execDStep s = .next t) :
    (∃ k, t = s.raise k) ∨ ∃ m, s.phase ≠ .empty ∧ s.idx < s.nblk ∧
      t = (advance m s).releaseDatapath.respond .ok (ofWords (compress s.hs m)) := by
  obtain ⟨k, e, -⟩ | ⟨m, ctx, lt, e, -⟩ | ⟨x, e, -⟩ :=
    sameDStep_dStep (s := s) (s' := s) rfl (sameContext_refl s)
  · exact .inl ⟨k, next_unique e h⟩
  · exact .inr ⟨m, ctx, lt, next_unique e h⟩
  · rw [e] at h
    cases h

/-- What DDROP leaves: the state of an error, or no context. -/
theorem dDrop_next {s t : State} (h : execDDrop s = .next t) :
    (∃ k, t = s.raise k) ∨ t = (dropContext s).respond .ok [] := by
  obtain ⟨k, e, -⟩ | ⟨e, -⟩ := dDrop_pair (s := s) (s' := s) rfl
  · exact .inl ⟨k, next_unique e h⟩
  · exact .inr (next_unique e h)

theorem dropContext_counters {s : State} (h : s.phase ≠ .empty) :
    (dropContext s).idx = 0 ∧ (dropContext s).nblk = 0 := by
  simp [dropContext_of_ne h]

/-- A command other than DINIT, DSTEP and DDROP leaves the context. -/
theorem exec_keepsContext {i : Instr} {s t : State} (hi : pureGroup i = true ∨ i = .dStat)
    (h : exec i s = .next t) : SameContext s t := by
  have ha : ∃ a : Answer, exec i s = .next (a.after s) := by
    obtain hi | rfl := hi
    · obtain ⟨a, e, -⟩ := exec_sameAnswer (s := s) (s' := s) rfl rfl hi
      exact ⟨a, e⟩
    · obtain ⟨a, e, -⟩ := sameAnswer_dStat (s := s) (s' := s) rfl rfl rfl rfl
      exact ⟨a, e⟩
  obtain ⟨a, e⟩ := ha
  obtain rfl := next_unique e h
  exact a.after_sameContext s

/-- Settles O49: an error keeps the context; of the commands that complete, three write PHASE, IDX or
NBLK, and what each leaves is known. -/
theorem contextStateMachine : Obligations.ContextStateMachine := by
  unfold Obligations.ContextStateMachine
  intro i s t r h hr
  cases i with
  | dInit p =>
    obtain ⟨k, rfl⟩ | ⟨o, ho, rfl⟩ := dInit_next h <;> cases hr
    · exact ⟨fun _ => ⟨rfl, rfl, rfl⟩, nofun⟩
    · exact ⟨fun hne => absurd rfl hne, fun _ => ⟨rfl, (initError_none.1 ho).2.2⟩⟩
  | dStep =>
    obtain ⟨k, rfl⟩ | ⟨m, ctx, lt, rfl⟩ := dStep_next h <;> cases hr
    · exact ⟨fun _ => ⟨rfl, rfl, rfl⟩, nofun⟩
    · exact ⟨fun hne => absurd rfl hne, fun _ => ⟨ctx, lt, rfl, rfl, rfl⟩⟩
  | dDrop =>
    obtain ⟨k, rfl⟩ | rfl := dDrop_next h <;> cases hr
    · exact ⟨fun _ => ⟨rfl, rfl, rfl⟩, nofun⟩
    · exact ⟨fun hne => absurd rfl hne, fun _ => ⟨dropContext_phase s, dropContext_counters⟩⟩
  | dStat =>
    have e := exec_keepsContext (.inr rfl) h
    exact ⟨fun _ => ⟨e.phase, e.idx, e.nblk⟩, fun _ => ⟨e.phase, e.idx, e.nblk⟩⟩
  | _ =>
    have e := exec_keepsContext (.inl rfl) h
    exact ⟨fun _ => ⟨e.phase, e.idx, e.nblk⟩, fun _ => ⟨e.phase, e.idx, e.nblk⟩⟩

/-! ### What no response depends on -/

/-- Two states alike in all a host can see, now or by a later command: HS counts while a context
exists. -/
structure SameView (t t' : State) : Prop where
  response : t'.response = t.response
  errlog : t'.errlog = t.errlog
  phase : t'.phase = t.phase
  idx : t'.idx = t.idx
  nblk : t'.nblk = t.nblk
  msg : t'.msg = t.msg
  hs : t.phase ≠ .empty → t'.hs = t.hs

/-- Two results a host cannot tell apart. -/
def ViewedAlike (r r' : Result) : Prop :=
  (∃ t t', r = .next t ∧ r' = .next t' ∧ SameView t t') ∨ ∃ x, r = .fault x ∧ r' = .fault x

section Views

variable {s s' : State} (herr : s'.errlog = s.errlog)

include herr

/-- The context a DINIT constructs is its operands' (R161). -/
theorem sameView_initContext (o : InitOperands) :
    SameView ((initContext o s).respond .ok []) ((initContext o s').respond .ok []) :=
  ⟨rfl, herr, rfl, rfl, rfl, rfl, fun _ => rfl⟩

variable (e : SameContext s s')

include e

theorem Answer.after_sameView (a : Answer) : SameView (a.after s) (a.after s') := by
  have h := a.after_sameContext s
  have h' := a.after_sameContext s'
  exact {
    response := by rw [a.after_response, a.after_response]
    errlog := a.after_errlog_congr herr
    phase := by rw [h'.phase, h.phase, e.phase]
    idx := by rw [h'.idx, h.idx, e.idx]
    nblk := by rw [h'.nblk, h.nblk, e.nblk]
    msg := by rw [h'.msg, h.msg, e.msg]
    hs := fun _ => by rw [h'.hs, h.hs, e.hs] }

theorem sameView_advance (m : Vector Word32 16) (out : List Item) :
    SameView ((advance m s).releaseDatapath.respond .ok out)
      ((advance m s').releaseDatapath.respond .ok out) := by
  constructor <;> simp [herr, e.hs, e.idx, e.nblk, e.msg]

theorem sameView_dropContext :
    SameView ((dropContext s).respond .ok []) ((dropContext s').respond .ok []) := by
  by_cases hp : s.phase = .empty
  · rw [dropContext_empty hp, dropContext_empty (e.phase.trans hp)]
    exact (Answer.pure []).after_sameView herr e
  · rw [dropContext_of_ne hp, dropContext_of_ne (e.phase ▸ hp)]
    exact ⟨rfl, herr, rfl, rfl, rfl, rfl, fun hne => absurd rfl hne⟩

theorem SameAnswer.viewedAlike {r r' : Result} (h : SameAnswer s s' r r') : ViewedAlike r r' := by
  obtain ⟨a, hr, hr'⟩ := h
  exact .inl ⟨_, _, hr, hr', a.after_sameView herr e⟩

theorem statusWord_congr : statusWord s' = statusWord s := by
  rw [statusWord, statusWord, terminal, terminal, herr, e.phase, e.idx, e.nblk]

variable (hp : s'.payload = s.payload)

include hp

/-- A command tells no two states apart that have the same context, error log and payload. -/
theorem exec_viewedAlike (i : Instr) : ViewedAlike (exec i s) (exec i s') := by
  cases i with
  | dInit p =>
    obtain ⟨k, h, h'⟩ | ⟨o, -, h, h'⟩ := dInit_pair hp e.capacity p
    · exact SameAnswer.viewedAlike herr e ⟨.error k, h, h'⟩
    · exact .inl ⟨_, _, h, h', sameView_initContext herr o⟩
  | dStep =>
    obtain ⟨k, h, h'⟩ | ⟨m, -, -, h, h'⟩ | hfault := sameDStep_dStep hp e
    · exact SameAnswer.viewedAlike herr e ⟨.error k, h, h'⟩
    · exact .inl ⟨_, _, h, h', sameView_advance herr e m _⟩
    · exact .inr hfault
  | dDrop =>
    obtain ⟨k, h, h'⟩ | ⟨h, h'⟩ := dDrop_pair hp
    · exact SameAnswer.viewedAlike herr e ⟨.error k, h, h'⟩
    · exact .inl ⟨_, _, h, h', sameView_dropContext herr e⟩
  | dStat =>
    have hread : ∀ n, readCounter s' n = readCounter s n := fun n => by
      rw [readCounter_eq, readCounter_eq, e.phase]
    exact (sameAnswer_dStat hp (statusWord_congr herr e) (by rw [hread, e.idx])
      (by rw [hread, e.nblk])).viewedAlike herr e
  | _ => exact (exec_sameAnswer hp e.capacity rfl).viewedAlike herr e

end Views

/-- Settles O60: the two states differ in the datapath and the counter of free values only, which no
command reads. -/
theorem datapathUnobservable : Obligations.DatapathUnobservable := by
  unfold Obligations.DatapathUnobservable
  intro i s dp n
  have e : SameContext s { s with dp := dp, free := n } := ⟨rfl, rfl, rfl, rfl, rfl, rfl⟩
  obtain ⟨t, t', h, h', v⟩ | ⟨x, h, h'⟩ :=
    exec_viewedAlike (s := s) (s' := { s with dp := dp, free := n }) rfl e rfl i
  · rw [h, h']
    refine ⟨fun u hu => ?_, nofun⟩
    cases hu
    exact ⟨t', rfl, v.response, v.errlog, v.phase, v.idx, v.nblk, v.msg, v.hs⟩
  · rw [h, h']
    exact ⟨nofun, fun _ hr => hr⟩

section Empty

variable {s s' : State} (hs : s.phase = .empty) (hs' : s'.phase = .empty)

include hs hs'

/-- With no context STATUS is the error log alone (R19, R29). -/
theorem statusWord_empty_congr (herr : s'.errlog = s.errlog) : statusWord s' = statusWord s := by
  rw [statusWord, statusWord, terminal, terminal, herr, hs, hs']

variable (hp : s'.payload = s.payload)

include hp

theorem sameAnswer_dStep_empty : SameAnswer s s' (execDStep s) (execDStep s') := by
  rw [execDStep, execDStep, hs, hs']
  exact sameAnswer_onNone hp (sameAnswer_fail _)

theorem sameAnswer_dDrop_empty : SameAnswer s s' (execDDrop s) (execDDrop s') := by
  rw [execDDrop, execDDrop, dropContext_empty hs, dropContext_empty hs']
  exact sameAnswer_onNone hp (sameAnswer_complete _)

theorem sameAnswer_dStat_empty (herr : s'.errlog = s.errlog) :
    SameAnswer s s' (execDStat s) (execDStat s') := by
  refine sameAnswer_dStat hp (statusWord_empty_congr hs hs' herr) ?_ ?_
  all_goals rw [readCounter_eq, readCounter_eq, if_pos hs, if_pos hs']

/-- With no context every command but DINIT is answered from payload, capacity and error log. -/
theorem exec_sameAnswer_empty (herr : s'.errlog = s.errlog) (hc : s'.maxMsgBits = s.maxMsgBits)
    {i : Instr} (hi : ∀ p, i ≠ .dInit p) : SameAnswer s s' (exec i s) (exec i s') := by
  cases i with
  | dInit p => exact absurd rfl (hi p)
  | dStep => exact sameAnswer_dStep_empty hs hs' hp
  | dDrop => exact sameAnswer_dDrop_empty hs hs' hp
  | dStat => exact sameAnswer_dStat_empty hs hs' hp herr
  | _ => exact exec_sameAnswer hp hc rfl

end Empty

/-- One answer in two states with no context is one response, and there is still no context. -/
theorem Answer.after_empty {s s' : State} (hs : s.phase = .empty) (hs' : s'.phase = .empty)
    (herr : s'.errlog = s.errlog) (a : Answer) :
    (a.after s').response = (a.after s).response ∧ (a.after s').errlog = (a.after s).errlog ∧
      (a.after s).phase = .empty ∧ (a.after s').phase = .empty :=
  ⟨by rw [a.after_response, a.after_response], a.after_errlog_congr herr,
    (a.after_sameContext s).phase.trans hs, (a.after_sameContext s').phase.trans hs'⟩

/-- Settles O59: with no context a command's answer reads nothing of the old one, and DINIT's new
context is its operands'. -/
theorem emptyContextUnobservable : Obligations.EmptyContextUnobservable := by
  unfold Obligations.EmptyContextUnobservable
  intro i s s' hs hs' hp herr hc
  have hanswer : SameAnswer s s' (exec i s) (exec i s') ∨ ∃ o,
      exec i s = complete (initContext o s) [] ∧ exec i s' = complete (initContext o s') [] := by
    by_cases hi : ∃ p, i = .dInit p
    · obtain ⟨p, rfl⟩ := hi
      obtain ⟨k, h, h'⟩ | ⟨o, -, h, h'⟩ := dInit_pair hp hc p
      · exact .inl ⟨.error k, h, h'⟩
      · exact .inr ⟨o, h, h'⟩
    · exact .inl (exec_sameAnswer_empty hs hs' hp herr hc (not_exists.1 hi))
  obtain ⟨a, h, h'⟩ | ⟨o, h, h'⟩ := hanswer
  · obtain ⟨hresp, hlog, hph, hph'⟩ := a.after_empty hs hs' herr
    exact ⟨_, _, h, h', hresp, hlog, hph'.trans hph.symm, fun hne => absurd hph hne⟩
  · have v := sameView_initContext herr o
    exact ⟨_, _, h, h', v.response, v.errlog, v.phase, fun hne => ⟨v.hs hne, v.idx, v.nblk, v.msg⟩⟩

end Sys2Proof.Machine

/-! Proofs of 20_memory.md: the bits of bytes (R42), the padded message and its length field (R43),
and the block of MSG that a DSTEP reads (R44). -/

namespace Sys2Proof.Machine

/-- A response alone writes nothing but the ports. -/
theorem endsPure_respond (s : State) (out : List Item) : EndsPure out s (s.respond .ok out) :=
  ⟨⟨rfl, rfl, sameContext_respond s .ok out, rfl, rfl⟩, ⟨rfl, rfl⟩⟩

/-- The FieldBit of a binary digit, the digit read as a bit of the number. -/
theorem beta_digit (n k : Nat) :
    beta (n / 2 ^ k % 2) = if n.testBit k then .one else .zero := by
  rw [Nat.testBit_eq_decide_div_mod_eq, beta]
  obtain h | h := Nat.mod_two_eq_zero_or_one (n / 2 ^ k) <;> simp [h]

/-- The padded length is the fewest whole blocks that hold the message and 65 bits more (R82). -/
theorem paddedLength_blocks (L : Nat) : paddedLength L = 512 * ((L + 64) / 512 + 1) := by
  unfold paddedLength padZeros
  omega

theorem messageFits_of {cap L : Nat} (hlt : L < 2 ^ 64) (hcap : 512 * ((L + 64) / 512 + 1) ≤ cap) :
    messageFits cap L = true := by
  rw [messageFits, paddedLength_blocks, Bool.and_eq_true]
  exact ⟨decide_eq_true hlt, decide_eq_true hcap⟩

/-! ### TOBITS -/

/-- TOBITS on bytes within the limits of R83. -/
theorem execToBits_of {s : State} {m : List (Fin 256)} (hp : s.payload = ofBytes m)
    (hfit : messageFits s.maxMsgBits (8 * m.length) = true) :
    execToBits s = complete s (ofBits (toBits m)) := by
  rw [execToBits, hp, bytesOf_ofBytes]
  exact if_pos hfit

theorem byteBits_getElem? (v : Fin 256) {b : Nat} (hb : b < 8) :
    (byteBits v)[b]? = some (if v.val.testBit (7 - b) then .one else .zero) := by
  rw [byteBits, List.getElem?_map, List.getElem?_range hb, Option.map_some, beta_digit]

/-- Bit `b` of byte `j` is element `8·j + b` (R80), by induction on the bytes. -/
theorem toBits_getElem? : ∀ (m : List (Fin 256)) (j : Nat) (hj : j < m.length) {b : Nat}, b < 8 →
    (toBits m)[8 * j + b]? = some (if m[j].val.testBit (7 - b) then .one else .zero)
  | v :: m, 0, _, b, hb => by
    rw [toBits_cons, List.getElem?_append_left (by simpa using hb), Nat.mul_zero, Nat.zero_add]
    exact byteBits_getElem? v hb
  | v :: m, j + 1, hj, b, hb => by
    have hshift : 8 * (j + 1) + b - (byteBits v).length = 8 * j + b := by
      rw [byteBits_length]; omega
    rw [toBits_cons, List.getElem?_append_right (by rw [byteBits_length]; omega), hshift]
    exact toBits_getElem? m j (Nat.lt_of_succ_lt_succ hj) hb

/-- Settles O23: TOBITS completes with `toBits`, whose length and elements are known. -/
theorem toBitsCommand : Obligations.ToBitsCommand := by
  unfold Obligations.ToBitsCommand
  intro s m hp hlt hcap
  exact ⟨toBits m, _, execToBits_of hp (messageFits_of hlt hcap), endsPure_respond s _,
    toBits_length m, fun j b => toBits_getElem? m j.val j.isLt b.isLt⟩

/-! ### PAD -/

/-- PAD on bits within the limits of R83. -/
theorem execPad_of {s : State} {m : List FieldBit} (hp : s.payload = ofBits m)
    (hfit : messageFits s.maxMsgBits m.length = true) :
    execPad s = complete s (ofBits (pad m) ++ [Item.nat m.length]) := by
  rw [execPad, hp, bitsOf_ofBits]
  exact if_pos hfit

/-- The padded message with its four parts nested to the right (R81). -/
theorem pad_eq (m : List FieldBit) :
    pad m = m ++ .one :: (List.replicate (padZeros m.length) .zero ++ be64 m.length) := by
  simp [pad]

/-- The padded message has room for the `1_F` and the length field (R81). -/
theorem pad_length_eq (m : List FieldBit) : (pad m).length = m.length + 65 + padZeros m.length := by
  rw [pad_length, paddedLength]
  omega

theorem pad_take (m : List FieldBit) : (pad m).take m.length = m := by
  rw [pad_eq, List.take_left]

theorem pad_getElem?_length (m : List FieldBit) : (pad m)[m.length]? = some .one := by
  rw [pad_eq, List.getElem?_append_right le_rfl, Nat.sub_self]
  rfl

/-- After the `1_F` and the zeros, the padded message goes on as the length field. -/
theorem pad_getElem?_after (m : List FieldBit) (i : Nat) : (pad m)[m.length + 1 + i]? =
    (List.replicate (padZeros m.length) FieldBit.zero ++ be64 m.length)[i]? := by
  have hshift : m.length + 1 + i - m.length = i + 1 := by omega
  rw [pad_eq, List.getElem?_append_right (by omega), hshift, List.getElem?_cons_succ]

/-- Between the `1_F` and the last 64 elements stand zeros (R81). -/
theorem pad_getElem?_zero {m : List FieldBit} {i : Nat} (hi : m.length < i)
    (hend : i + 64 < (pad m).length) : (pad m)[i]? = some .zero := by
  obtain ⟨d, rfl⟩ := Nat.exists_eq_add_of_lt hi
  rw [pad_length_eq] at hend
  have hd : d < padZeros m.length := by omega
  rw [Nat.add_right_comm, pad_getElem?_after, List.getElem?_append_left (by simpa using hd),
    List.getElem?_replicate_of_lt hd]

/-- The last 64 elements are the length, most significant bit first (R43). -/
theorem pad_getElem?_lengthField (m : List FieldBit) {i : Nat} (hi : i < 64) :
    (pad m)[(pad m).length - 64 + i]? =
      some (if m.length.testBit (63 - i) then .one else .zero) := by
  have hpos : (pad m).length - 64 + i = m.length + 1 + (padZeros m.length + i) := by
    rw [pad_length_eq]; omega
  rw [hpos, pad_getElem?_after, List.getElem?_append_right (by simp), List.length_replicate,
    Nat.add_sub_cancel_left, List.getElem?_eq_getElem (by simpa using hi), be64_get _ _ hi,
    beta_digit]

/-- Settles O28: PAD completes with `pad`, whose length and every part are known. -/
theorem padCommand : Obligations.PadCommand := by
  unfold Obligations.PadCommand
  intro s m hp hlt hcap
  have hroom : m.length + 65 ≤ (pad m).length := by
    rw [pad_length_eq]; omega
  exact ⟨pad m, _, execPad_of hp (messageFits_of hlt hcap), endsPure_respond s _,
    (pad_length m).trans (paddedLength_blocks _), hroom, pad_take m, pad_getElem?_length m,
    fun _ => pad_getElem?_zero, fun i => pad_getElem?_lengthField m i.isLt⟩

/-! ### DSTEP -/

/-- A block inside the message holds the message's own elements (R44). -/
theorem getElem?_eq_blockAt {m : List FieldBit} {j : Nat} (h : 512 * j + 512 ≤ m.length)
    (k : Fin 16) (i : Fin 32) :
    m[512 * j + 32 * k.val + i.val]? = some (blockAt m j)[k][i] :=
  (List.getElem?_eq_getElem (by omega)).trans
    (congrArg some (blockAt_get m j k i k.isLt i.isLt h).symm)

/-- Settles O42: with a context and a block left, DSTEP is `consumeBlock`, which reads the block at
`512·IDX`. -/
theorem stepConsumesOneBlock : Obligations.StepConsumesOneBlock := by
  unfold Obligations.StepConsumesOneBlock
  intro s hp ctx lt inside
  exact ⟨_, blockAt s.msg s.idx, (execDStep_of hp ctx).trans (consumeBlock_of lt inside),
    getElem?_eq_blockAt inside, rfl, rfl, rfl, rfl, rfl, rfl, rfl, rfl, rfl⟩

end Sys2Proof.Machine

/-! Proofs of 30_encoding.md: the command word and its decoding (R61, R62, R66 to R68), the one
response to a command (R60), and the payloads a command takes (R69, R83, R161, R180). -/

namespace Sys2Proof.Machine

/-! ### The command word as a number: `op` and `imm` are its quotient and remainder by 256 (R61) -/

theorem opField_toNat (cw : BitVec 16) : (opField cw).toNat = cw.toNat / 256 := by
  rw [opField, BitVec.extractLsb'_toNat, Nat.shiftRight_eq_div_pow]
  omega

theorem immField_toNat (cw : BitVec 16) : (immField cw).toNat = cw.toNat % 256 := by
  rw [immField, BitVec.extractLsb'_toNat, Nat.shiftRight_zero]

theorem encodeFields_lt (i : Instr) : (encodeFields i).1 < 256 ∧ (encodeFields i).2 < 256 := by
  cases i with
  | dInit p => cases p <;> decide
  | _ => simp only [encodeFields]; omega

theorem encode_toNat (i : Instr) :
    (encode i).toNat = 256 * (encodeFields i).1 + (encodeFields i).2 := by
  obtain ⟨hop, himm⟩ := encodeFields_lt i
  rw [encode, BitVec.toNat_append, BitVec.toNat_ofNat, BitVec.toNat_ofNat, Nat.mod_eq_of_lt hop,
    Nat.mod_eq_of_lt himm, ← Nat.shiftLeft_add_eq_or_of_lt himm, Nat.shiftLeft_eq, Nat.mul_comm]

/-- A word is the word of `i` exactly when its two fields are those of `i`. -/
theorem encode_eq_iff {i : Instr} {cw : BitVec 16} : encode i = cw ↔
    (opField cw).toNat = (encodeFields i).1 ∧ (immField cw).toNat = (encodeFields i).2 := by
  obtain ⟨hop, himm⟩ := encodeFields_lt i
  rw [← BitVec.toNat_inj, encode_toNat, opField_toNat, immField_toNat]
  omega

/-! ### The formats (R62): which immediates each takes, and the operand it reads -/

/-- The bits of `imm` from bit `n` up are zero exactly when the low `n` bits are its whole value. -/
theorem extractLsb'_high_eq_zero {imm : BitVec 8} {n l : Nat} (hl : n + l = 8) :
    imm.extractLsb' n l = 0 ↔ imm.toNat < 2 ^ n := by
  have hdiv : imm.toNat / 2 ^ n < 2 ^ l :=
    Nat.div_lt_of_lt_mul (by rw [← Nat.pow_add, hl]; exact imm.isLt)
  rw [← BitVec.toNat_inj, BitVec.extractLsb'_toNat, Nat.shiftRight_eq_div_pow,
    Nat.mod_eq_of_lt hdiv]
  exact Nat.div_eq_zero_iff_lt (Nat.two_pow_pos n)

theorem extractLsb'_low_toNat {imm : BitVec 8} {n : Nat} (h : imm.toNat < 2 ^ n) :
    (imm.extractLsb' 0 n).toNat = imm.toNat := by
  rw [BitVec.extractLsb'_toNat, Nat.shiftRight_zero, Nat.mod_eq_of_lt h]

theorem formatN_eq_ok {imm : BitVec 8} {i j : Instr} :
    formatN imm j = .ok i ↔ j = i ∧ imm.toNat = 0 := by
  have h0 : imm.toNat = 0 ↔ imm = 0 := BitVec.toNat_inj (y := 0)
  rw [formatN, h0]
  by_cases h : imm = 0
  · simp [h]
  · rw [if_neg h]
    exact ⟨nofun, fun e => absurd e.2 h⟩

theorem formatI8_eq_ok {imm : BitVec 8} {i : Instr} {mk : Fin 256 → Instr} :
    formatI8 imm mk = .ok i ↔ ∃ n, mk n = i ∧ imm.toNat = n.val := by
  rw [formatI8, Except.ok.injEq]
  constructor
  · intro e
    exact ⟨_, e, rfl⟩
  · rintro ⟨n, rfl, hn⟩
    exact congrArg mk (Fin.ext hn)

/-- An operand in the low `n` bits under bits that must be zero: what formats I3 and I6 share. -/
theorem lowOperand_eq_ok {n l : Nat} (hl : n + l = 8) {imm : BitVec 8} {i : Instr}
    {mk : Fin (2 ^ n) → Except DecodeError Instr} :
    (if imm.extractLsb' n l = 0 then mk (imm.extractLsb' 0 n).toFin
      else .error .reservedImmediate) = .ok i ↔ ∃ k, mk k = .ok i ∧ imm.toNat = k.val := by
  have hhigh := extractLsb'_high_eq_zero (imm := imm) hl
  by_cases h : imm.toNat < 2 ^ n
  · have hlow := extractLsb'_low_toNat h
    rw [if_pos (hhigh.2 h)]
    constructor
    · intro e
      exact ⟨_, e, hlow.symm⟩
    · rintro ⟨k, e, hk⟩
      rwa [show (imm.extractLsb' 0 n).toFin = k from Fin.ext (hlow.trans hk)]
  · rw [if_neg (mt hhigh.1 h)]
    refine ⟨nofun, ?_⟩
    rintro ⟨k, -, hk⟩
    exact absurd (hk ▸ k.isLt) h

theorem formatI3_eq_ok {imm : BitVec 8} {i : Instr} {mk : Fin 8 → Except DecodeError Instr} :
    formatI3 imm mk = .ok i ↔ ∃ k, mk k = .ok i ∧ imm.toNat = k.val :=
  lowOperand_eq_ok rfl

theorem formatI6_eq_ok {imm : BitVec 8} {i : Instr} {mk : Fin 64 → Instr} :
    formatI6 imm mk = .ok i ↔ ∃ t, .ok (mk t) = (.ok i : Except DecodeError Instr) ∧
      imm.toNat = t.val :=
  lowOperand_eq_ok (n := 6) (mk := fun t => .ok (mk t)) rfl

theorem formatP_eq_ok {imm : BitVec 8} {i : Instr} {mk : Bool → Instr} :
    formatP imm mk = .ok i ↔ ∃ p, mk p = i ∧ imm.toNat = if p then 1 else 0 := by
  have hhigh := extractLsb'_high_eq_zero (imm := imm) (n := 1) (l := 7) rfl
  rw [formatP, BitVec.getLsbD]
  by_cases h : imm.toNat < 2
  · rw [if_pos (hhigh.2 h)]
    obtain h0 | h1 : imm.toNat = 0 ∨ imm.toNat = 1 := by omega
    · simp [h0]
    · simp [h1]
  · rw [if_neg (mt hhigh.1 h)]
    refine ⟨nofun, ?_⟩
    rintro ⟨p, -, hp⟩
    cases p <;> simp only [if_true, Bool.false_eq_true, if_false] at hp <;> omega

theorem faddOperand_eq_ok {k : Fin 8} {i : Instr} :
    faddOperand k = .ok i ↔ .fAdd k = i ∧ faddCountOk k = true := by
  cases h : faddCountOk k <;> simp [faddOperand, h]

/-! ### Decoding is the inverse of encoding -/

/-- The key fact: a word decodes to the well-formed command whose word it is, and to no other.
From left to right a case is a row of R66, and one argument serves the rows of one format. -/
theorem decode_eq_ok_iff {cw : BitVec 16} {i : Instr} : decode cw = .ok i ↔
    i.wellFormed = true ∧ encode i = cw := by
  rw [encode_eq_iff]
  constructor
  · intro h
    unfold decode at h
    split at h
    case h_9 hop | h_10 hop =>
      obtain ⟨n, rfl, himm⟩ := formatI8_eq_ok.1 h
      exact ⟨rfl, hop, himm⟩
    case h_11 hop =>
      obtain ⟨k, hk, himm⟩ := formatI3_eq_ok.1 h
      obtain ⟨rfl, hcount⟩ := faddOperand_eq_ok.1 hk
      exact ⟨hcount, hop, himm⟩
    case h_12 hop =>
      obtain ⟨k, ⟨⟩, himm⟩ := formatI3_eq_ok.1 h
      exact ⟨rfl, hop, himm⟩
    case h_13 hop | h_21 hop =>
      obtain ⟨t, ⟨⟩, himm⟩ := formatI6_eq_ok.1 h
      exact ⟨rfl, hop, himm⟩
    case h_25 hop =>
      obtain ⟨p, rfl, himm⟩ := formatP_eq_ok.1 h
      exact ⟨rfl, hop, himm⟩
    case h_29 => cases h
    all_goals
      obtain ⟨rfl, himm⟩ := formatN_eq_ok.1 h
      exact ⟨rfl, ‹_›, himm⟩
  · rintro ⟨hwf, hop, himm⟩
    rw [decode, hop]
    cases i with
    | fRotr n | fShr n => exact formatI8_eq_ok.2 ⟨n, rfl, himm⟩
    | fAdd k => exact formatI3_eq_ok.2 ⟨k, faddOperand_eq_ok.2 ⟨rfl, hwf⟩, himm⟩
    | rdH k => exact formatI3_eq_ok.2 ⟨k, rfl, himm⟩
    | rdK t | round t => exact formatI6_eq_ok.2 ⟨t, rfl, himm⟩
    | dInit p => exact formatP_eq_ok.2 ⟨p, rfl, himm⟩
    | _ => exact formatN_eq_ok.2 ⟨rfl, himm⟩

/-- Settles O1, by the key fact read from right to left. -/
theorem decodeInvertsEncode : Obligations.DecodeInvertsEncode := by
  unfold Obligations.DecodeInvertsEncode
  intro i hwf
  exact decode_eq_ok_iff.2 ⟨hwf, rfl⟩

/-- Settles O2, by the key fact read from left to right. -/
theorem encodeInvertsDecode : Obligations.EncodeInvertsDecode := by
  unfold Obligations.EncodeInvertsDecode
  intro cw i h
  exact decode_eq_ok_iff.1 h

/-- Settles O4, by evaluation of closed words. -/
theorem decodesSpecWords : Obligations.DecodesSpecWords := by
  unfold Obligations.DecodesSpecWords
  decide

/-! ### The opcode map (R66): rows of `match` and `mask` -/

/-- One command of each row of R66, in the table's order. -/
def commands : List Instr :=
  [.toBits, .hexToBits, .bitsToHex, .pad, .fAnd, .fOr, .fXor, .fNot, .fRotr 0, .fShr 0, .fAdd 0,
    .rdH 0, .rdK 0, .sSig0, .sSig1, .bSig0, .bSig1, .ch, .maj, .sched, .round 0, .compress, .hash,
    .hashX, .dInit false, .dStep, .dStat, .dDrop]

/-- The rows of R66 are the rows of the commands. -/
theorem mem_rows_iff {row : BitVec 16 × BitVec 16} :
    row ∈ commands.map opcodeRow ↔ ∃ i, opcodeRow i = row := by
  constructor
  · intro h
    obtain ⟨i, -, hi⟩ := List.mem_map.1 h
    exact ⟨i, hi⟩
  · rintro ⟨i, rfl⟩
    cases i <;> simp [commands, opcodeRow]

/-- A command's word lies in the command's row: the laws of family OpcodeRow together. -/
theorem encode_matches_row (i : Instr) : encode i &&& (opcodeRow i).2 = (opcodeRow i).1 := by
  cases i with
  | toBits => exact Laws.OpcodeRow.toBits
  | hexToBits => exact Laws.OpcodeRow.hexToBits
  | bitsToHex => exact Laws.OpcodeRow.bitsToHex
  | pad => exact Laws.OpcodeRow.pad
  | fAnd => exact Laws.OpcodeRow.fAnd
  | fOr => exact Laws.OpcodeRow.fOr
  | fXor => exact Laws.OpcodeRow.fXor
  | fNot => exact Laws.OpcodeRow.fNot
  | fRotr n => exact Laws.OpcodeRow.fRotr n
  | fShr n => exact Laws.OpcodeRow.fShr n
  | fAdd k => exact Laws.OpcodeRow.fAdd k
  | rdH i => exact Laws.OpcodeRow.rdH i
  | rdK t => exact Laws.OpcodeRow.rdK t
  | sSig0 => exact Laws.OpcodeRow.sSig0
  | sSig1 => exact Laws.OpcodeRow.sSig1
  | bSig0 => exact Laws.OpcodeRow.bSig0
  | bSig1 => exact Laws.OpcodeRow.bSig1
  | ch => exact Laws.OpcodeRow.ch
  | maj => exact Laws.OpcodeRow.maj
  | sched => exact Laws.OpcodeRow.sched
  | round t => exact Laws.OpcodeRow.round t
  | compress => exact Laws.OpcodeRow.compress
  | hash => exact Laws.OpcodeRow.hash
  | hashX => exact Laws.OpcodeRow.hashX
  | dInit p => exact Laws.OpcodeRow.dInit p
  | dStep => exact Laws.OpcodeRow.dStep
  | dStat => exact Laws.OpcodeRow.dStat
  | dDrop => exact Laws.OpcodeRow.dDrop

/-- A word that agrees with `m` under a mask of all but the low `n` bits is `m` and a low part. -/
theorem toNat_of_masked {cw m : BitVec 16} (n : Nat) (h : cw &&& BitVec.allOnes 16 <<< n = m) :
    ∃ r < 2 ^ n, cw.toNat = m.toNat + r := by
  refine ⟨cw.toNat % 2 ^ n, Nat.mod_lt _ (Nat.two_pow_pos n), ?_⟩
  have hle : cw.toNat / 2 ^ n * 2 ^ n < 2 ^ 16 :=
    (Nat.div_mul_le_self _ _).trans_lt cw.isLt
  have hm : m.toNat = cw.toNat / 2 ^ n * 2 ^ n := by
    rw [← h, ← BitVec.shiftLeft_ushiftRight, BitVec.toNat_shiftLeft, BitVec.toNat_ushiftRight,
      Nat.shiftRight_eq_div_pow, Nat.shiftLeft_eq, Nat.mod_eq_of_lt hle]
  rw [hm, Nat.div_add_mod']

/-- A row that leaves the low `n` bits free, where those bits are the operand of `mk`. -/
theorem exists_encode_of_operand {cw m : BitVec 16} (n : Nat) (mk : Fin (2 ^ n) → Instr)
    (hmk : ∀ r, (encode (mk r)).toNat = m.toNat + r.val)
    (h : cw &&& BitVec.allOnes 16 <<< n = m) : ∃ j, encode j = cw := by
  obtain ⟨r, hr, e⟩ := toNat_of_masked n h
  exact ⟨mk ⟨r, hr⟩, BitVec.eq_of_toNat_eq ((hmk ⟨r, hr⟩).trans e.symm)⟩

/-- A word in the row of a command is the word of that row's command with some immediate. -/
theorem exists_encode_of_matches {cw : BitVec 16} {i : Instr}
    (h : cw &&& (opcodeRow i).2 = (opcodeRow i).1) : ∃ j, encode j = cw := by
  have fixed (hmask : (opcodeRow i).2 = BitVec.allOnes 16) : ∃ j, encode j = cw := by
    have he := encode_matches_row i
    rw [hmask, BitVec.and_allOnes] at h he
    exact ⟨i, he.trans h.symm⟩
  cases i with
  | fRotr _ => exact exists_encode_of_operand 8 .fRotr (fun _ => encode_toNat _) h
  | fShr _ => exact exists_encode_of_operand 8 .fShr (fun _ => encode_toNat _) h
  | fAdd _ => exact exists_encode_of_operand 3 .fAdd (fun _ => encode_toNat _) h
  | rdH _ => exact exists_encode_of_operand 3 .rdH (fun _ => encode_toNat _) h
  | rdK _ => exact exists_encode_of_operand 6 .rdK (fun _ => encode_toNat _) h
  | round _ => exact exists_encode_of_operand 6 .round (fun _ => encode_toNat _) h
  | dInit _ =>
    exact exists_encode_of_operand (m := 0x5000) 1 (fun r => .dInit (r == 1)) (by decide) h
  | _ => exact fixed rfl

/-- A word is some command's word exactly when it matches a row of R66. -/
theorem exists_encode_iff {cw : BitVec 16} : (∃ i, encode i = cw) ↔
    ∃ row ∈ commands.map opcodeRow, cw &&& row.2 = row.1 := by
  constructor
  · rintro ⟨i, rfl⟩
    exact ⟨_, mem_rows_iff.2 ⟨i, rfl⟩, encode_matches_row i⟩
  · rintro ⟨row, hrow, h⟩
    obtain ⟨i, rfl⟩ := mem_rows_iff.1 hrow
    exact exists_encode_of_matches h

/-- Only FADD's words have FADD's upper bits. -/
theorem encodeFields_of_fAdd_row {i : Instr} (h : encode i &&& 0xFFF8 = 0x1600) :
    (encodeFields i).1 = 0x16 := by
  obtain ⟨r, hr, e⟩ := toNat_of_masked 3 h
  obtain ⟨-, himm⟩ := encodeFields_lt i
  have hword : (encode i).toNat = 256 * 0x16 + r := e
  rw [encode_toNat] at hword
  omega

/-- FADD's operand count, read from the word (R67): a condition on no other command. -/
theorem wellFormed_iff_encode {i : Instr} : i.wellFormed = true ↔
    (encode i &&& 0xFFF8 = 0x1600 → 1 ≤ (encode i &&& 7).toNat ∧ (encode i &&& 7).toNat ≤ 5) := by
  cases i with
  | fAdd k => revert k; decide
  | _ =>
    exact ⟨fun _ h => absurd (encodeFields_of_fAdd_row h) (Nat.ne_of_beq_eq_false rfl),
      fun _ => rfl⟩

/-- Settles O3: a word decodes when it is a well-formed command's word, a command's word is one that
matches a row, and well-formed is what the clause on FADD says. -/
theorem legalWordsExactly : Obligations.LegalWordsExactly := by
  unfold Obligations.LegalWordsExactly
  intro cw
  refine Iff.trans ?_ (and_congr_left' exists_encode_iff)
  constructor
  · rintro ⟨i, h⟩
    obtain ⟨hwf, rfl⟩ := decode_eq_ok_iff.1 h
    exact ⟨⟨i, rfl⟩, wellFormed_iff_encode.1 hwf⟩
  · rintro ⟨⟨i, rfl⟩, hcount⟩
    exact ⟨i, decode_eq_ok_iff.2 ⟨wellFormed_iff_encode.2 hcount, rfl⟩⟩

/-! ### One response to every command (R60) -/

/-- Settles O6: such a word is answered by `illegalWord`, which raises the error. -/
theorem stepAnswersIllegalWord : Obligations.StepAnswersIllegalWord := by
  unfold Obligations.StepAnswersIllegalWord
  intro s c rest e hp hd
  refine ⟨_, ?_, endsWithError_raise _ _⟩
  simp only [step, nextCommand_cons hp, hd, illegalWord, fail]

theorem ends_pending {s t : State} (h : Ends s t) : t.pending = s.pending := by
  cases h <;> simp

theorem ends_payload {s t : State} (h : Ends s t) : t.payload = [] := by
  cases h <;> rfl

/-- Every ending leaves a response, and only an error's status is not OK: it carries no payload. -/
theorem ends_response {s t : State} (h : Ends s t) :
    ∃ r, t.response = some r ∧ (r.status ≠ .ok → r.payload = []) := by
  cases h with
  | error k => exact ⟨_, rfl, fun _ => rfl⟩
  | _ => exact ⟨_, rfl, fun hne => absurd rfl hne⟩

/-- Settles O8, by the ways a command can end. -/
theorem oneResponsePerCommand : Obligations.OneResponsePerCommand := by
  unfold Obligations.OneResponsePerCommand
  intro s t c rest hp h
  obtain ⟨hnil, -⟩ | ⟨c', rest', hp', he⟩ := step_cases h
  · rw [hp] at hnil
    cases hnil
  · obtain ⟨-, rfl⟩ := List.cons.inj (hp.symm.trans hp')
    exact ⟨ends_pending he, ends_payload he, ends_response he⟩

/-! ### Which commands end as illegal (R68, R69) -/

/-- The command ended with IllegalCommand. -/
def EndsIllegal (s : State) (r : Result) : Prop :=
  ∃ t, r = .next t ∧ EndsWithError .illegalCommand s t

theorem endsIllegal_fail (s : State) : EndsIllegal s (fail s .illegalCommand) :=
  ⟨_, rfl, endsWithError_raise _ _⟩

theorem not_endsIllegal_complete (s s' : State) (out : List Item) :
    ¬ EndsIllegal s (complete s' out) := by
  rintro ⟨_, ⟨⟩, e⟩
  cases e.response

theorem not_endsIllegal_fail (s : State) {k : ErrorKind} (hk : k ≠ .illegalCommand) :
    ¬ EndsIllegal s (fail s k) := by
  rintro ⟨_, ⟨⟩, e⟩
  cases e.response
  exact hk rfl

theorem endsIllegal_onWords {k : Nat} {s : State} {f : Vector Word32 k → Result}
    (hf : ∀ v, ¬ EndsIllegal s (f v)) :
    EndsIllegal s (onWords k s f) ↔ ¬ ∃ v : Vector Word32 k, s.payload = ofWords v := by
  obtain ⟨v, hv, e⟩ | ⟨hnone, e⟩ := onWords_cases k s f
  · rw [e]
    exact iff_of_false (hf v) (not_not_intro ⟨v, hv⟩)
  · rw [e]
    exact iff_of_true (endsIllegal_fail s) (not_exists.2 hnone)

theorem endsIllegal_onNone {s : State} {r : Result} (hr : ¬ EndsIllegal s r) :
    EndsIllegal s (onNone s r) ↔ ¬ s.payload = [] := by
  obtain ⟨hp, e⟩ | ⟨hp, e⟩ := onNone_cases s r
  · rw [e]
    exact iff_of_false hr (not_not_intro hp)
  · rw [e]
    exact iff_of_true (endsIllegal_fail s) hp

/-! The commands on a list of any length, and DINIT, share one shape: read the operand, hold it
against the capacity, perform the command. -/

/-- Perform a command on an operand that was read and that fits, or refuse it as illegal (R68 d). -/
def onOperand {α : Type} (s : State) (o : Option α) (fits : α → Bool) (f : α → Result) : Result :=
  match o with
  | none => fail s .illegalCommand
  | some a => if fits a then f a else fail s .illegalCommand

/-- Complete with what a conversion gives, or end with FormatError (R181). -/
def orFormatError {α : Type} (s : State) (o : Option α) (f : α → Result) : Result :=
  match o with
  | none => fail s .formatError
  | some a => f a

/-- DINIT on operands within the limits: its own checks, then the context (R161). -/
def runInit (s : State) (o : InitOperands) : Result :=
  match initError o with
  | some k => fail s k
  | none => complete (initContext o s) []

theorem execToBits_eq (s : State) : execToBits s =
    onOperand s (bytesOf s.payload) (fun m => messageFits s.maxMsgBits (8 * m.length))
      fun m => complete s (ofBits (toBits m)) := by
  rw [execToBits]
  cases bytesOf s.payload <;> rfl

theorem execHexToBits_eq (s : State) : execHexToBits s =
    onOperand s (charsOf s.payload) (fun cs => payloadFits s.maxMsgBits (4 * cs.length))
      fun cs => orFormatError s (hexToBits cs) fun bs => complete s (ofBits bs) := by
  rw [execHexToBits]
  cases charsOf s.payload with
  | none => rfl
  | some cs =>
    dsimp only [onOperand]
    cases hexToBits cs <;> rfl

theorem execBitsToHex_eq (s : State) : execBitsToHex s =
    onOperand s (bitsOf s.payload) (fun bs => payloadFits s.maxMsgBits bs.length)
      fun bs => orFormatError s (bitsToHex bs) fun cs => complete s (ofChars cs) := by
  rw [execBitsToHex]
  cases bitsOf s.payload with
  | none => rfl
  | some bs =>
    dsimp only [onOperand]
    cases bitsToHex bs <;> rfl

theorem execPad_eq (s : State) : execPad s =
    onOperand s (bitsOf s.payload) (fun m => messageFits s.maxMsgBits m.length)
      fun m => complete s (ofBits (pad m) ++ [Item.nat m.length]) := by
  rw [execPad]
  cases bitsOf s.payload <;> rfl

theorem execHash_eq (s : State) : execHash s =
    onOperand s (bytesOf s.payload) (fun m => messageFits s.maxMsgBits (8 * m.length))
      fun m => complete s.releaseDatapath (ofWords (native m)) := by
  rw [execHash]
  cases bytesOf s.payload <;> rfl

theorem execHashX_eq (s : State) : execHashX s =
    onOperand s (charsOf s.payload) (fun cs => messageFits s.maxMsgBits (4 * cs.length))
      fun cs => orFormatError s (hexToBits cs)
        fun b => complete s.releaseDatapath (ofWords (nativeBits b)) := by
  rw [execHashX]
  cases charsOf s.payload with
  | none => rfl
  | some cs =>
    dsimp only [onOperand]
    cases hexToBits cs <;> rfl

theorem execDInit_eq (p : Bool) (s : State) : execDInit p s =
    onOperand s (initOf p [] s.payload) (fun o => payloadFits s.maxMsgBits o.message.length)
      (runInit s) := by
  rw [execDInit]
  cases initOf p [] s.payload <;> rfl

theorem endsIllegal_onOperand {α : Type} {s : State} {o : Option α} {fits : α → Bool}
    {f : α → Result} (hf : ∀ a, ¬ EndsIllegal s (f a)) :
    EndsIllegal s (onOperand s o fits f) ↔ ¬ ∃ a, o = some a ∧ fits a = true := by
  cases o with
  | none => exact iff_of_true (endsIllegal_fail s) (by simp)
  | some a =>
    cases h : fits a with
    | false => simpa [onOperand, h] using endsIllegal_fail s
    | true => simpa [onOperand, h] using hf a

theorem not_endsIllegal_orFormatError {α : Type} {s : State} {o : Option α} {f : α → Result}
    (hf : ∀ a, ¬ EndsIllegal s (f a)) : ¬ EndsIllegal s (orFormatError s o f) := by
  cases o with
  | none => exact not_endsIllegal_fail s nofun
  | some a => exact hf a

theorem messageFits_eq {cap L : Nat} :
    messageFits cap L = true ↔ L < 2 ^ 64 ∧ 512 * ((L + 64) / 512 + 1) ≤ cap := by
  rw [messageFits, paddedLength_blocks, Bool.and_eq_true, decide_eq_true_eq, decide_eq_true_eq]

section Limits

/-! What each reads, with R69's and R83's limits on it, is what `PayloadTaken` says. -/

variable {α : Type} {s : State} {o : Option α} {f : α → Result} {size : α → Nat}
  {shape : α → List Item} (hread : ∀ a, o = some a ↔ s.payload = shape a)
  (hf : ∀ a, ¬ EndsIllegal s (f a))

include hread hf

/-- A command that holds the padded length against the capacity (R83). -/
theorem endsIllegal_onMessage :
    EndsIllegal s (onOperand s o (fun a => messageFits s.maxMsgBits (size a)) f) ↔
      ¬ ∃ a, s.payload = shape a ∧ size a < 2 ^ 64 ∧
        512 * ((size a + 64) / 512 + 1) ≤ s.maxMsgBits := by
  rw [endsIllegal_onOperand hf]
  exact not_congr (exists_congr fun a => and_congr (hread a) messageFits_eq)

/-- A command that holds its payload's own bit count against the capacity (R69). -/
theorem endsIllegal_onBits :
    EndsIllegal s (onOperand s o (fun a => payloadFits s.maxMsgBits (size a)) f) ↔
      ¬ ∃ a, s.payload = shape a ∧ size a < 2 ^ 64 ∧ size a ≤ s.maxMsgBits := by
  rw [endsIllegal_onOperand hf]
  exact not_congr (exists_congr fun a => and_congr (hread a) payloadFits_eq)

end Limits

/-! ### DINIT's own checks (R161, R162) -/

theorem initError_unaligned {o : InitOperands} (h : o.message.length % 512 ≠ 0) :
    initError o = some .invariantViolation := if_pos h

theorem initError_configuration {o : InitOperands} (hal : o.message.length % 512 = 0)
    (h : (o.prior = none ∧ o.index ≠ 0) ∨ o.message.length / 512 ≤ o.index) :
    initError o = some .configurationError := by
  rw [initError, if_neg (not_not_intro hal)]
  split
  · rfl
  next hno => exact if_pos (h.resolve_left hno)

theorem initError_ne_illegal (o : InitOperands) : initError o ≠ some .illegalCommand := by
  unfold initError
  repeat' split
  all_goals nofun

theorem runInit_of_error {s : State} {o : InitOperands} {k : ErrorKind}
    (h : initError o = some k) : runInit s o = fail s k := by
  rw [runInit, h]

theorem not_endsIllegal_runInit (s : State) (o : InitOperands) :
    ¬ EndsIllegal s (runInit s o) := by
  rw [runInit]
  cases h : initError o with
  | none => exact not_endsIllegal_complete s _ _
  | some k =>
    refine not_endsIllegal_fail s ?_
    rintro rfl
    exact initError_ne_illegal o h

theorem endsIllegal_dInit (p : Bool) (s : State) : EndsIllegal s (execDInit p s) ↔
    ¬ PayloadTaken s.maxMsgBits (.dInit p) s.payload := by
  rw [execDInit_eq, endsIllegal_onOperand (not_endsIllegal_runInit s)]
  refine not_congr (exists_congr fun o => ?_)
  rw [initOf_eq, payloadFits_eq, and_assoc, and_assoc]

/-! ### DSTEP and COMPRESS -/

theorem not_endsIllegal_consumeBlock (s : State) : ¬ EndsIllegal s (consumeBlock s) := by
  rw [consumeBlock]
  split
  · exact not_endsIllegal_fail s nofun
  · cases Memory.readBlock s.msg s.idx with
    | none => exact fun ⟨_, h, _⟩ => nomatch h
    | some m => exact not_endsIllegal_complete s _ _

theorem endsIllegal_dStep (s : State) : EndsIllegal s (execDStep s) ↔ ¬ s.payload = [] := by
  refine endsIllegal_onNone ?_
  cases s.phase with
  | empty => exact not_endsIllegal_fail s nofun
  | initialized | advanced => exact not_endsIllegal_consumeBlock s

/-- A payload of `j + k` words is one of `j` words and one of `k` words, one after the other. -/
theorem exists_ofWords_add {j k : Nat} {p : List Item} :
    (∃ v : Vector Word32 (j + k), p = ofWords v) ↔
      ∃ (a : Vector Word32 j) (b : Vector Word32 k), p = ofWords a ++ ofWords b := by
  constructor
  · rintro ⟨v, rfl⟩
    refine ⟨⟨⟨v.toList.take j⟩, by simp⟩, ⟨⟨v.toList.drop j⟩, by simp⟩, ?_⟩
    simp only [ofWords, Vector.toList_mk, ← List.map_append, List.take_append_drop]
  · rintro ⟨a, b, rfl⟩
    exact ⟨a ++ b, by simp [ofWords]⟩

/-! ### The payloads a command takes (R66, R69, R83) -/

/-- FADD's immediate is the one that the encoding can get wrong (R67). -/
theorem endsIllegal_of_not_wellFormed {i : Instr} (hwf : ¬ i.wellFormed = true) (s : State) :
    EndsIllegal s (exec i s) := by
  cases i with
  | fAdd k => 
    rw [show exec (.fAdd k) s = fail s .illegalCommand from if_neg hwf]
    exact endsIllegal_fail s
  | _ => exact absurd rfl hwf

/-- A well-formed command is illegal exactly for its payload. -/
theorem endsIllegal_iff_of_wellFormed {i : Instr} (hwf : i.wellFormed = true) (s : State) :
    EndsIllegal s (exec i s) ↔ ¬ PayloadTaken s.maxMsgBits i s.payload := by
  cases i with
  | toBits =>
    rw [exec, execToBits_eq]
    exact endsIllegal_onMessage (fun _ => bytesOf_eq) fun _ => not_endsIllegal_complete s _ _
  | hexToBits =>
    rw [exec, execHexToBits_eq]
    exact endsIllegal_onBits (fun _ => charsOf_eq) fun _ =>
      not_endsIllegal_orFormatError fun _ => not_endsIllegal_complete s _ _
  | bitsToHex =>
    rw [exec, execBitsToHex_eq]
    exact endsIllegal_onBits (fun _ => bitsOf_eq) fun _ =>
      not_endsIllegal_orFormatError fun _ => not_endsIllegal_complete s _ _
  | pad =>
    rw [exec, execPad_eq]
    exact endsIllegal_onMessage (fun _ => bitsOf_eq) fun _ => not_endsIllegal_complete s _ _
  | hash =>
    rw [exec, execHash_eq]
    exact endsIllegal_onMessage (fun _ => bytesOf_eq) fun _ => not_endsIllegal_complete s _ _
  | hashX =>
    rw [exec, execHashX_eq]
    exact endsIllegal_onMessage (fun _ => charsOf_eq) fun _ =>
      not_endsIllegal_orFormatError fun _ => not_endsIllegal_complete s _ _
  | fAdd k =>
    rw [show exec (.fAdd k) s = onWords k.val s _ from if_pos hwf]
    exact endsIllegal_onWords fun _ => not_endsIllegal_complete s _ _
  | compress =>
    exact (endsIllegal_onWords fun _ => not_endsIllegal_complete s _ _).trans
      (not_congr (exists_ofWords_add (j := 8) (k := 16)))
  | rdH _ | rdK _ | dStat | dDrop => exact endsIllegal_onNone (not_endsIllegal_complete s _ _)
  | dInit p => exact endsIllegal_dInit p s
  | dStep => exact endsIllegal_dStep s
  | _ => exact endsIllegal_onWords fun _ => not_endsIllegal_complete s _ _

/-- Settles O9: an ill-formed command is illegal, a well-formed one exactly for its payload. -/
theorem illegalPayloadExactly : Obligations.IllegalPayloadExactly := by
  unfold Obligations.IllegalPayloadExactly
  intro i s
  by_cases hwf : i.wellFormed = true
  · exact (endsIllegal_iff_of_wellFormed hwf s).trans (not_congr (and_iff_right hwf).symm)
  · exact iff_of_true (endsIllegal_of_not_wellFormed hwf s) (fun h => hwf h.1)

/-! ### DINIT's errors in their order (R187) -/

/-- An index of 2^64 or more is no natural of a payload (R63). -/
theorem initOf_index_over {p : Bool} {o : InitOperands} (h : 2 ^ 64 ≤ o.index) :
    initOf p [] (ofInit o) = none := by
  rw [ofInit, initOf_bits]
  exact if_neg (Nat.not_lt.2 h)

/-- DINIT on operands within the limits of R69 and R180 comes to its own checks. -/
theorem execDInit_of {s : State} {o : InitOperands} (hp : s.payload = ofInit o)
    (hlt : o.message.length < 2 ^ 64) (hcap : o.message.length ≤ s.maxMsgBits)
    (hidx : o.index < 2 ^ 64) : execDInit o.prior.isSome s = runInit s o := by
  rw [execDInit_eq, initOf_eq.2 ⟨hp, hidx, rfl⟩]
  exact if_pos (payloadFits_eq.2 ⟨hlt, hcap⟩)

/-- DINIT on operands outside them is illegal. -/
theorem execDInit_over {s : State} {o : InitOperands} (hp : s.payload = ofInit o)
    (h : 2 ^ 64 ≤ o.message.length ∨ s.maxMsgBits < o.message.length ∨ 2 ^ 64 ≤ o.index) :
    execDInit o.prior.isSome s = fail s .illegalCommand := by
  rw [execDInit_eq, hp]
  by_cases hidx : o.index < 2 ^ 64
  · rw [initOf_eq.2 ⟨rfl, hidx, rfl⟩]
    refine if_neg ?_
    rw [payloadFits_eq]
    omega
  · rw [initOf_index_over (Nat.not_lt.1 hidx)]
    rfl

/-- Settles O41: outside the limits DINIT is illegal, within them its first failing check
answers. -/
theorem initChecksInOrder : Obligations.InitChecksInOrder := by
  unfold Obligations.InitChecksInOrder
  intro s o hp
  have answers {k : ErrorKind} (h : exec (.dInit o.prior.isSome) s = fail s k) :
      ∃ t, exec (.dInit o.prior.isSome) s = .next t ∧ EndsWithError k s t :=
    ⟨_, h, endsWithError_raise s k⟩
  refine ⟨fun h => answers (execDInit_over hp h), fun hlt hcap hidx => ?_⟩
  have hrun := execDInit_of hp hlt hcap hidx
  exact ⟨fun h => answers (hrun.trans (runInit_of_error (initError_unaligned h))),
    fun hal h => answers (hrun.trans (runInit_of_error (initError_configuration hal h)))⟩

end Sys2Proof.Machine

/-! Proofs of 40_framing.md: the hex digits (R87), HEX2BITS (R84), BITS2HEX (R85) and their round
trips (R86). -/

namespace Sys2Proof.Machine

/-! ### The hex digits -/

theorem hexval_eq_none {c : Nat}
    (h : c < 0x30 ∨ (0x39 < c ∧ c < 0x41) ∨ (0x46 < c ∧ c < 0x61) ∨ 0x66 < c) :
    hexval c = none := by
  rw [hexval, if_neg (by omega), if_neg (by omega), if_neg (by omega)]

/-- Settles O26: the codes that are hex digits are finitely many, and `hexval_eq_none` has the
others. -/
theorem hexDigitTable : Obligations.HexDigitTable := by
  unfold Obligations.HexDigitTable
  exact ⟨by decide, by decide, fun _ => hexval_eq_none⟩

/-- The code of an upper-case hex letter lowered; every other code as it is (R86). -/
def lowerHex (c : Nat) : Nat := if 0x41 ≤ c ∧ c ≤ 0x46 then c + 0x20 else c

/-- A hex digit's value is written as that digit in lower case. -/
theorem hexdigit_of_hexval {c d : Nat} (h : hexval c = some d) : hexdigit d = lowerHex c := by
  unfold hexval at h
  split at h
  · cases h
    rw [hexdigit, if_pos (by omega), lowerHex, if_neg (by omega)]
    omega
  · split at h
    · cases h
      rw [hexdigit, if_neg (by omega), lowerHex, if_pos (by omega)]
      omega
    · split at h
      · cases h
        rw [hexdigit, if_neg (by omega), lowerHex, if_neg (by omega)]
        omega
      · cases h

/-! ### HEX2BITS: the digits' bits, most significant first -/

theorem nibbleBits_eq (d : Nat) :
    nibbleBits d = (List.range 4).map fun b => beta (d / 2 ^ (3 - b) % 2) := by
  simp [nibbleBits, List.range_succ]

theorem nibbleBits_getElem? (d : Nat) {b : Nat} (hb : b < 4) :
    (nibbleBits d)[b]? = some (if d.testBit (3 - b) then .one else .zero) := by
  rw [nibbleBits_eq, List.getElem?_map, List.getElem?_range hb, Option.map_some, beta_digit]

theorem digitsToBits_cons (c : Nat) (cs : List Nat) : digitsToBits (c :: cs) =
    (hexval c).bind fun d => (digitsToBits cs).map (nibbleBits d ++ ·) := by
  rw [digitsToBits]
  cases hexval c with
  | none => rfl
  | some d => cases digitsToBits cs <;> rfl

/-- What it takes to convert a text of at least one character. -/
theorem digitsToBits_cons_eq_some {c : Nat} {cs : List Nat} {bs : List FieldBit} :
    digitsToBits (c :: cs) = some bs ↔
      ∃ d, hexval c = some d ∧ ∃ rest, digitsToBits cs = some rest ∧ nibbleBits d ++ rest = bs := by
  simp only [digitsToBits_cons, Option.bind_eq_some_iff, Option.map_eq_some_iff]

/-- The conversion fails exactly on a character that is no hex digit. -/
theorem digitsToBits_eq_none {cs : List Nat} :
    digitsToBits cs = none ↔ ∃ c ∈ cs, hexval c = none := by
  induction cs with
  | nil => simp [digitsToBits]
  | cons c cs ih =>
    rw [List.exists_mem_cons_iff, ← ih, digitsToBits_cons]
    cases hexval c <;> simp

/-- Bit `b` of digit `j` is element `4·j + b`, by induction on the text. -/
theorem digitsToBits_getElem? : ∀ {cs : List Nat} {bs : List FieldBit},
    digitsToBits cs = some bs → ∀ (j : Nat) (hj : j < cs.length) {b : Nat}, b < 4 →
    ∃ d, hexval cs[j] = some d ∧
      bs[4 * j + b]? = some (if d.testBit (3 - b) then .one else .zero)
  | c :: cs, bs, h, 0, _, b, hb => by
    obtain ⟨d, hd, rest, -, rfl⟩ := digitsToBits_cons_eq_some.1 h
    refine ⟨d, hd, ?_⟩
    rw [Nat.mul_zero, Nat.zero_add, List.getElem?_append_left (by simpa using hb)]
    exact nibbleBits_getElem? d hb
  | c :: cs, bs, h, j + 1, hj, b, hb => by
    obtain ⟨d, -, rest, hrest, rfl⟩ := digitsToBits_cons_eq_some.1 h
    have hshift : 4 * (j + 1) + b - (nibbleBits d).length = 4 * j + b := by
      rw [nibbleBits_length]; omega
    rw [List.getElem?_append_right (by rw [nibbleBits_length]; omega), hshift]
    exact digitsToBits_getElem? hrest j (Nat.lt_of_succ_lt_succ hj) hb

theorem hexToBits_of_even {cs : List Nat} (h : cs.length % 2 = 0) :
    hexToBits cs = digitsToBits cs := if_neg (by omega)

/-- FormatError is for an odd length or a character that is no hex digit. -/
theorem hexToBits_eq_none {cs : List Nat} :
    hexToBits cs = none ↔ cs.length % 2 = 1 ∨ ∃ c ∈ cs, hexval c = none := by
  rw [hexToBits, ← digitsToBits_eq_none]
  split
  next hodd => exact iff_of_true rfl (.inl hodd)
  next heven => exact (or_iff_right heven).symm

/-- Even-length hex text converts, with `digitsToBits`. -/
theorem exists_hexToBits {cs : List Nat} (heven : cs.length % 2 = 0)
    (hhex : ∀ c ∈ cs, hexval c ≠ none) :
    ∃ bs, hexToBits cs = some bs ∧ digitsToBits cs = some bs := by
  have hne : digitsToBits cs ≠ none := fun h =>
    let ⟨c, hc, hnone⟩ := digitsToBits_eq_none.1 h
    hhex c hc hnone
  obtain ⟨bs, hbs⟩ := Option.ne_none_iff_exists'.1 hne
  exact ⟨bs, (hexToBits_of_even heven).trans hbs, hbs⟩

/-- HEX2BITS on text within the limits of R69. -/
theorem execHexToBits_of {s : State} {cs : List Nat} (hp : s.payload = ofChars cs)
    (hlt : 4 * cs.length < 2 ^ 64) (hcap : 4 * cs.length ≤ s.maxMsgBits) :
    execHexToBits s = orFormatError s (hexToBits cs) fun bs => complete s (ofBits bs) := by
  rw [execHexToBits_eq, charsOf_eq.2 hp]
  exact if_pos (payloadFits_eq.2 ⟨hlt, hcap⟩)

/-- Settles O24: within the limits HEX2BITS answers what `hexToBits` gives. -/
theorem hexToBitsCommand : Obligations.HexToBitsCommand := by
  unfold Obligations.HexToBitsCommand
  intro s cs hp hlt hcap
  have hrun := execHexToBits_of hp hlt hcap
  refine ⟨fun heven hhex => ?_, fun hbad => ?_⟩
  · obtain ⟨bs, hbits, hdigits⟩ := exists_hexToBits heven hhex
    rw [hbits] at hrun
    exact ⟨bs, _, hrun, endsPure_respond s _, digitsToBits_length hdigits,
      fun j b => digitsToBits_getElem? hdigits j.val j.isLt b.isLt⟩
  · rw [hexToBits_eq_none.2 hbad] at hrun
    exact ⟨_, hrun, endsWithError_raise s _⟩

/-! ### BITS2HEX: one lower-case digit for four bits -/

theorem bitsToDigits_length : ∀ bs : List FieldBit, (bitsToDigits bs).length = bs.length / 4
  | [] | [_] | [_, _] | [_, _, _] => by simp [bitsToDigits]
  | _ :: _ :: _ :: _ :: rest => by
    simp only [bitsToDigits, List.length_cons, bitsToDigits_length rest]
    omega

/-- Digit `j` is that of the bits from `4·j` on, by recursion on the bits as `bitsToDigits`. -/
theorem bitsToDigits_getElem :
    ∀ (bs : List FieldBit) (j : Nat) (hj : j < (bitsToDigits bs).length),
    ∃ a b c d : FieldBit, bs[4 * j]? = some a ∧ bs[4 * j + 1]? = some b ∧
      bs[4 * j + 2]? = some c ∧ bs[4 * j + 3]? = some d ∧
      (bitsToDigits bs)[j] = hexdigit (8 * bitVal a + 4 * bitVal b + 2 * bitVal c + bitVal d)
  | [], _, hj | [_], _, hj | [_, _], _, hj | [_, _, _], _, hj => absurd hj (Nat.not_lt_zero _)
  | a :: b :: c :: d :: _, 0, _ => ⟨a, b, c, d, rfl, rfl, rfl, rfl, rfl⟩
  | _ :: _ :: _ :: _ :: rest, j + 1, hj =>
    bitsToDigits_getElem rest j (Nat.lt_of_succ_lt_succ hj)

theorem bitsToHex_of {bs : List FieldBit} (h : bs.length % 8 = 0) :
    bitsToHex bs = some (bitsToDigits bs) := if_pos h

theorem bitsToHex_eq_none {bs : List FieldBit} (h : bs.length % 8 ≠ 0) :
    bitsToHex bs = none := if_neg h

/-- BITS2HEX on bits within the limits of R69. -/
theorem execBitsToHex_of {s : State} {bs : List FieldBit} (hp : s.payload = ofBits bs)
    (hlt : bs.length < 2 ^ 64) (hcap : bs.length ≤ s.maxMsgBits) :
    execBitsToHex s = orFormatError s (bitsToHex bs) fun cs => complete s (ofChars cs) := by
  rw [execBitsToHex_eq, bitsOf_eq.2 hp]
  exact if_pos (payloadFits_eq.2 ⟨hlt, hcap⟩)

/-- Settles O25: within the limits BITS2HEX answers what `bitsToHex` gives. -/
theorem bitsToHexCommand : Obligations.BitsToHexCommand := by
  unfold Obligations.BitsToHexCommand
  intro s bs hp hlt hcap
  have hrun := execBitsToHex_of hp hlt hcap
  refine ⟨fun hwhole => ?_, fun hpart => ?_⟩
  · rw [bitsToHex_of hwhole] at hrun
    have hlen : 4 * (bitsToDigits bs).length = bs.length := by
      rw [bitsToDigits_length]; omega
    exact ⟨bitsToDigits bs, _, hrun, endsPure_respond s _, hlen,
      fun j => bitsToDigits_getElem bs j.val j.isLt⟩
  · rw [bitsToHex_eq_none hpart] at hrun
    exact ⟨_, hrun, endsWithError_raise s _⟩

/-! ### Round trips -/

/-- The digits of a whole number of nibbles read back as their bits. -/
theorem digitsToBits_bitsToDigits : ∀ {bs : List FieldBit}, bs.length % 4 = 0 →
    digitsToBits (bitsToDigits bs) = some bs
  | [], _ => rfl
  | a :: b :: c :: d :: rest, h => by
    have hrest : rest.length % 4 = 0 := by
      simp only [List.length_cons] at h
      omega
    exact digitsToBits_cons_eq_some.2
      ⟨_, hexval_hexdigit (nibble_lt a b c d), rest, digitsToBits_bitsToDigits hrest, by
        rw [nibbleBits_value]; rfl⟩

/-- The bits of a digit's value stand for that value. -/
theorem bitsToDigits_nibbleBits {d : Nat} (hd : d < 16) (rest : List FieldBit) :
    bitsToDigits (nibbleBits d ++ rest) = hexdigit d :: bitsToDigits rest := by
  have hvalue : 8 * (d / 8 % 2) + 4 * (d / 4 % 2) + 2 * (d / 2 % 2) + d % 2 = d := by omega
  have hbit (n : Nat) : bitVal (beta (n % 2)) = n % 2 := bitVal_beta (Nat.mod_lt n two_pos)
  simp only [nibbleBits, List.cons_append, List.nil_append, bitsToDigits, hbit, hvalue]

/-- The digits of a hex text's bits are that text in lower case. -/
theorem bitsToDigits_of_digitsToBits : ∀ {cs : List Nat} {bs : List FieldBit},
    digitsToBits cs = some bs → bitsToDigits bs = cs.map lowerHex
  | [], _, h => by cases h; rfl
  | c :: cs, _, h => by
    obtain ⟨d, hd, rest, hrest, rfl⟩ := digitsToBits_cons_eq_some.1 h
    rw [bitsToDigits_nibbleBits (hexval_lt hd), hexdigit_of_hexval hd,
      bitsToDigits_of_digitsToBits hrest, List.map_cons]

/-- Whole bytes' hex text reads back as their bits. -/
theorem hexToBits_bitsToDigits {bs : List FieldBit} (h : bs.length % 8 = 0) :
    hexToBits (bitsToDigits bs) = some bs := by
  rw [hexToBits_of_even (by rw [bitsToDigits_length]; omega),
    digitsToBits_bitsToDigits (by omega)]

/-- Settles O27: the bits of bytes are whole bytes, and so are those of even-length hex text. -/
theorem hexRoundTrip : Obligations.HexRoundTrip := by
  unfold Obligations.HexRoundTrip
  refine ⟨fun m => ?_, fun cs heven hhex => ?_⟩
  · have hwhole : (toBits m).length % 8 = 0 := by
      rw [toBits_length]; omega
    exact ⟨_, bitsToHex_of hwhole, hexToBits_bitsToDigits hwhole⟩
  · obtain ⟨bs, hbits, hdigits⟩ := exists_hexToBits heven hhex
    have hwhole : bs.length % 8 = 0 := by
      rw [digitsToBits_length hdigits]; omega
    exact ⟨bs, hbits, (bitsToHex_of hwhole).trans
      (congrArg some (bitsToDigits_of_digitsToBits hdigits))⟩

end Sys2Proof.Machine

/-! Proofs of 41_field_bit_ops.md: the FieldBit operations and the full adder in every field (R100
to R103, R106), rotation, shift and addition on words and on their numbers (R104, R105, R107, R108,
R116), and the commands that perform them (R109 to R115). -/

namespace Sys2Proof.Machine

/-! ### FieldBits -/

theorem fbOr_eq_one {a b : FieldBit} : fbOr a b = .one ↔ a = .one ∨ b = .one := by
  cases a <;> cases b <;> simp [fbOr]

theorem fbOr_eq_zero {a b : FieldBit} : fbOr a b = .zero ↔ a = .zero ∧ b = .zero := by
  cases a <;> cases b <;> simp [fbOr]

theorem fbXor_eq_ite (a b : FieldBit) : fbXor a b = if a = b then .zero else .one := by
  cases a <;> cases b <;> rfl

theorem fbXor_eq_one_iff_ne {a b : FieldBit} : fbXor a b = .one ↔ a ≠ b := by
  rw [fbXor_eq_ite]
  split <;> simp_all

theorem fbNot_eq_one_iff_zero {a : FieldBit} : fbNot a = .one ↔ a = .zero := by
  cases a <;> simp [fbNot]

theorem embed_fbOr (F : Type) [Field F] (a b : FieldBit) :
    embed F (fbOr a b) = orForm (embed F a) (embed F b) := by
  cases a <;> cases b <;> simp [fbOr, orForm]

/-- Settles O10: the tables entry by entry, and the field form of each operation. -/
theorem truthTablesAndFieldForms : Obligations.TruthTablesAndFieldForms := by
  unfold Obligations.TruthTablesAndFieldForms
  exact ⟨fun a b => ⟨fbAnd_eq_one, fbOr_eq_zero, fbXor_eq_ite a b, fbNot_eq_one_iff_zero⟩,
    fun F _ a b => ⟨embed_fbAnd F a b, embed_fbOr F a b, embed_fbXor F a b, embed_fbNot F a⟩⟩

/-- Settles O11: the equations define the full adder, and it adds its three inputs' digits. -/
theorem fullAdderArithmetic : Obligations.FullAdderArithmetic := by
  unfold Obligations.FullAdderArithmetic
  exact ⟨fun a b c => ⟨rfl, rfl, fullAdder a b c⟩,
    fun F _ a b c => ⟨embed_fbSum F a b c, embed_fbCarry F a b c⟩⟩

/-! ### Rotation (R104) -/

theorem rotr_getElem_add (x : Word32) (n : Nat) {i : Nat} (hi : i < 32) :
    (rotr x n)[(i + n) % 32]'(Nat.mod_lt _ (by decide)) = x[i] := by
  have hback : ((i + n) % 32 + (32 - n % 32)) % 32 = i := by omega
  simp only [rotr_get, hback]

theorem rotr_mod (x : Word32) (n : Nat) : rotr x (n % 32) = rotr x n := by
  simp only [rotr, Nat.mod_mod]

theorem rotr_rotr (x : Word32) (m n : Nat) : rotr (rotr x m) n = rotr x (m + n) := by
  ext i hi
  have hsum : ((i + (32 - n % 32)) % 32 + (32 - m % 32)) % 32 = (i + (32 - (m + n) % 32)) % 32 := by
    omega
  simp only [rotr_get, hsum]

@[simp] theorem rotr_zero (x : Word32) : rotr x 0 = x := by
  ext i hi
  have hself : (i + (32 - 0 % 32)) % 32 = i := by omega
  simp only [rotr_get, hself]

@[simp] theorem rotr_thirtyTwo (x : Word32) : rotr x 32 = x := by
  rw [← rotr_mod, Nat.mod_self, rotr_zero]

/-- The low `n mod 32` binary digits move above the others (R104). -/
theorem val_rotr (x : Word32) (n : Nat) :
    val (rotr x n) = val x / 2 ^ (n % 32) + val x % 2 ^ (n % 32) * 2 ^ (32 - n % 32) := by
  have hr : n % 32 ≤ 32 := (Nat.mod_lt n (by decide)).le
  rw [← toNum_toNat, toNum_rotr, BitVec.toNat_rotateRight, toNum_toNat, Nat.or_comm]
  generalize n % 32 = r at *
  have hsplit : 2 ^ 32 = 2 ^ r * 2 ^ (32 - r) := by rw [← pow_add, Nat.add_sub_cancel' hr]
  have hlow : val x >>> r < 2 ^ (32 - r) := by
    rw [Nat.shiftRight_eq_div_pow]
    exact Nat.div_lt_of_lt_mul (hsplit ▸ val_lt x)
  have hhigh : val x <<< (32 - r) % 2 ^ 32 = (val x % 2 ^ r) <<< (32 - r) := by
    rw [Nat.shiftLeft_eq, Nat.shiftLeft_eq, hsplit, Nat.mul_mod_mul_right]
  rw [hhigh, ← Nat.shiftLeft_add_eq_or_of_lt hlow, Nat.shiftLeft_eq, Nat.shiftRight_eq_div_pow,
    Nat.add_comm]

/-- Settles O13, from where each element goes and what becomes of the number. -/
theorem rotateFunction : Obligations.RotateFunction := by
  unfold Obligations.RotateFunction
  exact fun x n => ⟨fun i => rotr_getElem_add x n i.isLt, rotr_zero x, rotr_thirtyTwo x,
    (rotr_mod x n).symm, val_rotr x n⟩

/-! ### Shift (R105) -/

theorem shr_getElem_of_lt (x : Word32) {n i : Nat} (hi : i < 32) (h : i < n) :
    (shr x n)[i] = .zero := by
  rw [shr_get, if_pos h]

theorem shr_getElem_add (x : Word32) {n i : Nat} (h : i + n < 32) : (shr x n)[i + n] = x[i] := by
  simp [shr_get]

theorem val_shr (x : Word32) (n : Nat) : val (shr x n) = val x / 2 ^ n := by
  rw [← toNum_toNat, toNum_shr, BitVec.toNat_ushiftRight, toNum_toNat, Nat.shiftRight_eq_div_pow]

/-- Settles O14: by values for the amount 0, by elements for 32 or more. -/
theorem shiftFunction : Obligations.ShiftFunction := by
  unfold Obligations.ShiftFunction
  refine fun x n => ⟨fun i => shr_getElem_of_lt x i.isLt, fun i => shr_getElem_add x,
    val_injective ?_, fun hn => ?_, val_shr x n⟩
  · rw [val_shr, pow_zero, Nat.div_one]
  · ext i hi
    rw [shr_getElem_of_lt x hi (hi.trans_le hn), Word32.zero, Vector.getElem_replicate]

/-! ### Addition (R107, R108) -/

/-- The carry out of the ripple from index `i` on. -/
def carryFrom (as bs : List FieldBit) (i : Nat) : FieldBit := (ripple (as.drop i) (bs.drop i)).2

theorem carryFrom_length (as bs : List FieldBit) : carryFrom as bs as.length = .zero := by
  simp [carryFrom, ripple]

theorem carryFrom_eq_fbCarry {as bs : List FieldBit} {i : Nat} (ha : i < as.length)
    (hb : i < bs.length) :
    carryFrom as bs i = fbCarry as[i] bs[i] (carryFrom as bs (i + 1)) := by
  rw [carryFrom, List.drop_eq_getElem_cons ha, List.drop_eq_getElem_cons hb]
  rfl

/-- The sum's element `i` is the full adder's of that index, by recursion on the index. -/
theorem ripple_getElem? : ∀ {as bs : List FieldBit} {i : Nat} (ha : i < as.length)
    (hb : i < bs.length),
    (ripple as bs).1[i]? = some (fbSum as[i] bs[i] (carryFrom as bs (i + 1)))
  | _ :: _, _ :: _, 0, _, _ => rfl
  | _ :: _, _ :: _, _ + 1, ha, hb =>
    ripple_getElem? (Nat.lt_of_succ_lt_succ ha) (Nat.lt_of_succ_lt_succ hb)

theorem add2_getElem (x y : Word32) {i : Nat} (hi : i < 32) :
    (add2 x y)[i] = fbSum x[i] y[i] (carryFrom x.toList y.toList (i + 1)) := by
  have h : (add2 x y).toList[i]? = _ :=
    ripple_getElem? (as := x.toList) (bs := y.toList) (i := i) (by simpa) (by simpa)
  simpa [hi] using h

/-- Settles O15: the carry into index `i` is the one out of the ripple from `i + 1` on. -/
theorem rippleAddition : Obligations.RippleAddition := by
  unfold Obligations.RippleAddition
  refine fun x y => ⟨⟨carryFrom x.toList y.toList, ?_, fun i => ⟨add2_getElem x y i.isLt, ?_⟩⟩,
    val_add2 x y⟩
  · simpa using carryFrom_length x.toList y.toList
  · simpa using carryFrom_eq_fbCarry (as := x.toList) (bs := y.toList) (i := i) (by simp) (by simp)

theorem val_zero : val Word32.zero = 0 := by
  rw [← toNum_toNat, toNum_zero]
  rfl

/-- `add32` adds modulo 2^32, by induction on the operands (R108). -/
theorem val_add32 (x : Word32) (rest : List Word32) :
    val (add32 x rest) = (val x + (rest.map val).sum) % 2 ^ 32 := by
  induction rest generalizing x with
  | nil => exact (Nat.mod_eq_of_lt (val_lt x)).symm
  | cons y ys ih =>
    rw [add32_cons, ih, val_add2, Nat.mod_add_mod, List.map_cons, List.sum_cons, Nat.add_assoc]

/-- Settles O16: `add32` is a fold, and it adds. -/
theorem variadicAddition : Obligations.VariadicAddition := by
  unfold Obligations.VariadicAddition
  exact fun x y rest => ⟨rfl, List.foldl_append, val_add32 x rest⟩

/-- Two sums agree when their operands' values add up to the same number. -/
theorem add32_congr {x y : Word32} {xs ys : List Word32}
    (h : val x + (xs.map val).sum = val y + (ys.map val).sum) : add32 x xs = add32 y ys :=
  val_injective (by rw [val_add32, val_add32, h])

theorem add32_perm {x y : Word32} {xs ys : List Word32} (h : (x :: xs).Perm (y :: ys)) :
    add32 x xs = add32 y ys :=
  add32_congr (by simpa using (h.map val).sum_eq)

theorem add2_comm (x y : Word32) : add2 x y = add2 y x := add32_perm (.swap y x [])

theorem add2_assoc (x y z : Word32) : add2 (add2 x y) z = add2 x (add2 y z) :=
  val_injective (by simp only [val_add2, Nat.mod_add_mod, Nat.add_mod_mod, Nat.add_assoc])

theorem add2_zero (x : Word32) : add2 x Word32.zero = x :=
  add32_congr (xs := [Word32.zero]) (ys := []) (by simp [val_zero])

theorem shr_shr (x : Word32) (m n : Nat) : shr (shr x m) n = shr x (m + n) :=
  val_injective (by rw [val_shr, val_shr, val_shr, Nat.div_div_eq_div_mul, pow_add])

/-! ### Lanes -/

theorem fbAnd_comm (a b : FieldBit) : fbAnd a b = fbAnd b a := by cases a <;> cases b <;> rfl

theorem fbOr_comm (a b : FieldBit) : fbOr a b = fbOr b a := by cases a <;> cases b <;> rfl

theorem fbXor_comm (a b : FieldBit) : fbXor a b = fbXor b a := by cases a <;> cases b <;> rfl

theorem fbAnd_assoc (a b c : FieldBit) : fbAnd (fbAnd a b) c = fbAnd a (fbAnd b c) := by
  cases a <;> cases b <;> cases c <;> rfl

theorem fbOr_assoc (a b c : FieldBit) : fbOr (fbOr a b) c = fbOr a (fbOr b c) := by
  cases a <;> cases b <;> cases c <;> rfl

theorem fbXor_assoc (a b c : FieldBit) : fbXor (fbXor a b) c = fbXor a (fbXor b c) := by
  cases a <;> cases b <;> cases c <;> rfl

theorem wAnd_comm (x y : Word32) : wAnd x y = wAnd y x := by
  ext i hi
  simp only [wAnd_get, fbAnd_comm]

theorem wOr_comm (x y : Word32) : wOr x y = wOr y x := by
  ext i hi
  simp only [wOr_get, fbOr_comm]

theorem wXor_comm (x y : Word32) : wXor x y = wXor y x := by
  ext i hi
  simp only [wXor_get, fbXor_comm]

theorem wAnd_assoc (x y z : Word32) : wAnd (wAnd x y) z = wAnd x (wAnd y z) := by
  ext i hi
  simp only [wAnd_get, fbAnd_assoc]

theorem wOr_assoc (x y z : Word32) : wOr (wOr x y) z = wOr x (wOr y z) := by
  ext i hi
  simp only [wOr_get, fbOr_assoc]

theorem wXor_assoc (x y z : Word32) : wXor (wXor x y) z = wXor x (wXor y z) := by
  ext i hi
  simp only [wXor_get, fbXor_assoc]

/-- Settles O17: addition and shift by their values, rotation and the lanes by their elements. -/
theorem arithmeticLaws : Obligations.ArithmeticLaws := by
  unfold Obligations.ArithmeticLaws
  exact fun x y z _ _ m n => ⟨add2_comm x y, add2_assoc x y z, rfl, add32_perm, add2_zero x,
    rotr_rotr x m n, rotr_thirtyTwo x, rotr_zero x, shr_shr x m n,
    wAnd_comm x y, wOr_comm x y, wXor_comm x y,
    wAnd_assoc x y z, wOr_assoc x y z, wXor_assoc x y z⟩

/-! ### The commands (R109 to R115) -/

/-- Settles O18: each command completes with its lane operation on the presented words. -/
theorem lanewiseCommands : Obligations.LanewiseCommands := by
  unfold Obligations.LanewiseCommands
  refine fun s x y => ⟨fun hp => ⟨?_, ?_, ?_⟩, fun hp => ?_⟩
  · refine ⟨wAnd x y, _, onWords_of _ hp, endsPure_respond s _, fun i => ?_⟩
    rw [Fin.getElem_fin, wAnd_get]
    exact fbAnd_eq_one
  · refine ⟨wOr x y, _, onWords_of _ hp, endsPure_respond s _, fun i => ?_⟩
    rw [Fin.getElem_fin, wOr_get]
    exact fbOr_eq_one
  · refine ⟨wXor x y, _, onWords_of _ hp, endsPure_respond s _, fun i => ?_⟩
    rw [Fin.getElem_fin, wXor_get]
    exact fbXor_eq_one_iff_ne
  · refine ⟨wNot x, _, onWords_of _ hp, endsPure_respond s _, fun i => ?_⟩
    rw [Fin.getElem_fin, wNot_get]
    exact fbNot_eq_one_iff_zero

/-- Settles O19: each command completes with its function of the presented word. -/
theorem rotateAndShiftCommands : Obligations.RotateAndShiftCommands := by
  unfold Obligations.RotateAndShiftCommands
  exact fun s x n hp =>
    ⟨⟨rotr x n, _, onWords_of _ hp, endsPure_respond s _, fun i => rotr_getElem_add x n i.isLt⟩,
      ⟨shr x n, _, onWords_of _ hp, endsPure_respond s _,
        fun i => shr_getElem_of_lt x i.isLt, fun i => shr_getElem_add x⟩⟩

/-- FADD's sum of all its operands, of none too. -/
theorem val_addAll : ∀ xs : List Word32, val (addAll xs) = (xs.map val).sum % 2 ^ 32
  | [] => val_zero
  | x :: xs => val_add32 x xs

theorem wellFormed_fAdd {k : Fin 8} : (Instr.fAdd k).wellFormed = true ↔ 1 ≤ k.val ∧ k.val ≤ 5 := by
  simp [Instr.wellFormed]

/-- FADD with a legal count is a command on words. -/
theorem exec_fAdd {k : Fin 8} (hk : (Instr.fAdd k).wellFormed = true) (s : State) :
    exec (.fAdd k) s = onWords k.val s fun v => complete s [Item.ofWord (addAll v.toList)] :=
  if_pos hk

/-- Settles O20: the sum of the words presented, or the refusal that O9 gives. -/
theorem addCommand : Obligations.AddCommand := by
  unfold Obligations.AddCommand
  refine fun s k => ⟨fun v hlow hhigh hp => ?_, fun hbad => ?_⟩
  · have hrun := (exec_fAdd (wellFormed_fAdd.2 ⟨hlow, hhigh⟩) s).trans (onWords_of _ hp)
    exact ⟨_, _, hrun, endsPure_respond s _, val_addAll v.toList⟩
  · refine (illegalPayloadExactly (.fAdd k) s).2 ?_
    rintro ⟨hwf, v, hv⟩
    obtain ⟨hlow, hhigh⟩ := wellFormed_fAdd.1 hwf
    obtain hzero | hover | hnone := hbad
    · omega
    · omega
    · exact hnone v hv

end Sys2Proof.Machine

/-! Proofs of 42_constant_rom.md: the first 64 primes and the ROM's words as integer roots (R120), and
the two reads (R121 to R124). -/

namespace Sys2Proof.Machine

/-! ### The primes (R120) -/

/-- Trial division by the numbers below `b` decides primality below `b ^ 2`: a number that is not
prime has a divisor up to its square root. -/
theorem prime_iff_trialDivision {q b : Nat} (hq : q < b ^ 2) :
    q.Prime ↔ 2 ≤ q ∧ ∀ m < b, m ∣ q → m = 1 ∨ m = q := by
  refine ⟨fun hp => ⟨hp.two_le, fun m _ => hp.eq_one_or_self_of_dvd m⟩, fun ⟨htwo, hdvd⟩ =>
    Nat.prime_def_le_sqrt.2 ⟨htwo, fun m hm hsqrt hmq => ?_⟩⟩
  have hmb : m < b := hsqrt.trans_lt (Nat.sqrt_lt'.2 hq)
  have hne : m ≠ q := (hsqrt.trans_lt (Nat.sqrt_lt_self htwo)).ne
  obtain hone | hself := hdvd m hmb hmq
  · omega
  · exact hne hself

/-- The listed primes are what trial division up to 17 leaves of the numbers up to 311. -/
theorem firstPrimes_eq_filter_prime :
    firstPrimes.toList = (List.range 312).filter fun q => q.Prime := by
  have htrial : ∀ q ∈ List.range 312,
      decide q.Prime = decide (2 ≤ q ∧ ∀ m : Nat, m < 18 → m ∣ q → m = 1 ∨ m = q) := fun q hq =>
    have hlt : q < 18 ^ 2 := (List.mem_range.1 hq).trans (by decide)
    decide_eq_decide.2 (prime_iff_trialDivision hlt)
  rw [List.filter_congr htrial]
  decide

theorem mem_firstPrimes {q : Nat} : q ∈ firstPrimes.toList ↔ q < 312 ∧ q.Prime := by
  simp only [firstPrimes_eq_filter_prime, List.mem_filter, List.mem_range, decide_eq_true_eq]

theorem firstPrimes_increasing : firstPrimes.toList.Pairwise (· < ·) := by
  rw [firstPrimes_eq_filter_prime]
  exact List.pairwise_lt_range.filter _

/-! ### The words as roots (R120 to R122) -/

theorem romHHex_eq_nthRoot (i : Fin 8) :
    romHHex[i] = Nat.nthRoot 2 (firstPrimes[i.val] * 2 ^ 64) % 2 ^ 32 := by
  revert i
  decide

theorem romKHex_eq_nthRoot (t : Fin 64) :
    romKHex[t] = Nat.nthRoot 3 (firstPrimes[t] * 2 ^ 96) % 2 ^ 32 := by
  revert t
  decide

theorem nthRoot_bounds {n : Nat} (hn : n ≠ 0) (a : Nat) :
    Nat.nthRoot n a ^ n ≤ a ∧ a < (Nat.nthRoot n a + 1) ^ n :=
  ⟨Nat.pow_nthRoot_le_iff.2 (.inl hn), Nat.lt_pow_nthRoot_add_one hn a⟩

/-- Settles O22: the integer roots are the library's, and each table entry is the low word of its
root. -/
theorem romFromPrimes : Obligations.RomFromPrimes := by
  unfold Obligations.RomFromPrimes
  refine ⟨⟨firstPrimes_increasing, fun q hq => ?_⟩, fun i => ?_, fun t => ?_⟩
  · rw [mem_firstPrimes, and_iff_right (Nat.lt_succ_of_le hq)]
  · obtain ⟨hle, hlt⟩ := nthRoot_bounds two_ne_zero (firstPrimes[i.val] * 2 ^ 64)
    exact ⟨_, hle, hlt, (val_romH i).trans (romHHex_eq_nthRoot i)⟩
  · obtain ⟨hle, hlt⟩ := nthRoot_bounds three_ne_zero (firstPrimes[t] * 2 ^ 96)
    exact ⟨_, hle, hlt, (val_romK t).trans (romKHex_eq_nthRoot t)⟩

/-! ### The reads (R123, R124) -/

/-- Settles O21: with no operand presented each read completes with its table's word. -/
theorem romReadCommands : Obligations.RomReadCommands := by
  unfold Obligations.RomReadCommands
  exact fun s i t hp =>
    ⟨⟨romH i, _, onNone_of _ hp, endsPure_respond s _, val_romH i⟩,
      ⟨romK t, _, onNone_of _ hp, endsPure_respond s _, val_romK t⟩⟩

end Sys2Proof.Machine

/-! Proofs of 43_compression.md: the six word functions on a payload (R130 to R135), the message
schedule (R136), a round (R137), a block (R138, R139), and the sequencer's micro-steps (R140). -/

namespace Sys2Proof.Machine

/-! ### The six word functions (R130 to R135) -/

/-- Every amount of R130 to R133 is below 32. -/
theorem rotr_get_of_lt (x : Word32) {n i : Nat} (hi : i < 32) (hn : n < 32) :
    (rotr x n)[i] = x[(i + 32 - n) % 32]'(Nat.mod_lt _ (by decide)) := by
  have hback : (i + (32 - n % 32)) % 32 = (i + 32 - n) % 32 := by omega
  simp only [rotr_get, hback]

theorem shr_get_mod (x : Word32) (n : Nat) {i : Nat} (hi : i < 32) :
    (shr x n)[i] = if i < n then .zero else x[(i - n) % 32]'(Nat.mod_lt _ (by decide)) := by
  have hlow : (i - n) % 32 = i - n := Nat.mod_eq_of_lt (by omega)
  simp only [shr_get, hlow]

/-- The form of R130 and R131 at an index: two rotations and a shift. -/
theorem xor_rotr_rotr_shr_get (x : Word32) {a b c i : Nat} (ha : a < 32) (hb : b < 32)
    (hi : i < 32) :
    (wXor (wXor (rotr x a) (rotr x b)) (shr x c))[i] =
      fbXor (fbXor (x[(i + 32 - a) % 32]'(Nat.mod_lt _ (by decide)))
          (x[(i + 32 - b) % 32]'(Nat.mod_lt _ (by decide))))
        (if i < c then .zero else x[(i - c) % 32]'(Nat.mod_lt _ (by decide))) := by
  rw [wXor_get, wXor_get, rotr_get_of_lt x hi ha, rotr_get_of_lt x hi hb, shr_get_mod x c hi]

/-- The form of R132 and R133 at an index: three rotations. -/
theorem xor_rotr_rotr_rotr_get (x : Word32) {a b c i : Nat} (ha : a < 32) (hb : b < 32)
    (hc : c < 32) (hi : i < 32) :
    (wXor (wXor (rotr x a) (rotr x b)) (rotr x c))[i] =
      fbXor (fbXor (x[(i + 32 - a) % 32]'(Nat.mod_lt _ (by decide)))
          (x[(i + 32 - b) % 32]'(Nat.mod_lt _ (by decide))))
        (x[(i + 32 - c) % 32]'(Nat.mod_lt _ (by decide))) := by
  rw [wXor_get, wXor_get, rotr_get_of_lt x hi ha, rotr_get_of_lt x hi hb, rotr_get_of_lt x hi hc]

/-- Settles O29: each command completes with its function of the presented word, and the functions
have two forms. -/
theorem sigmaCommands : Obligations.SigmaCommands := by
  unfold Obligations.SigmaCommands
  refine fun s x hp => ⟨⟨sSigma0 x, _, onWords_of _ hp, endsPure_respond s _, fun i => ?_⟩,
    ⟨sSigma1 x, _, onWords_of _ hp, endsPure_respond s _, fun i => ?_⟩,
    ⟨bSigma0 x, _, onWords_of _ hp, endsPure_respond s _, fun i => ?_⟩,
    ⟨bSigma1 x, _, onWords_of _ hp, endsPure_respond s _, fun i => ?_⟩⟩
  · exact xor_rotr_rotr_shr_get x (by decide) (by decide) i.isLt
  · exact xor_rotr_rotr_shr_get x (by decide) (by decide) i.isLt
  · exact xor_rotr_rotr_rotr_get x (by decide) (by decide) (by decide) i.isLt
  · exact xor_rotr_rotr_rotr_get x (by decide) (by decide) (by decide) i.isLt

/-- The first lane chooses between the other two (R134). -/
theorem chWord_get (x y z : Word32) {i : Nat} (hi : i < 32) :
    (chWord x y z)[i] = if x[i] = .one then y[i] else z[i] := by
  simp only [chWord, wXor_get, wAnd_get, wNot_get]
  cases x[i] <;> cases y[i] <;> cases z[i] <;> rfl

/-- The lane is `1_F` where at least two of the three are (R135). -/
theorem majWord_get (x y z : Word32) {i : Nat} (hi : i < 32) :
    (majWord x y z)[i] = if 2 ≤ bitVal x[i] + bitVal y[i] + bitVal z[i] then .one else .zero := by
  simp only [majWord, wXor_get, wAnd_get]
  cases x[i] <;> cases y[i] <;> cases z[i] <;> rfl

/-- Settles O30: each command completes with its function of the presented words. -/
theorem chAndMajCommands : Obligations.ChAndMajCommands := by
  unfold Obligations.ChAndMajCommands
  exact fun s x y z hp =>
    ⟨⟨chWord x y z, _, onWords_of _ hp, endsPure_respond s _, fun i => chWord_get x y z i.isLt⟩,
      ⟨majWord x y z, _, onWords_of _ hp, endsPure_respond s _, fun i => majWord_get x y z i.isLt⟩⟩

/-! ### The message schedule (R136) -/

/-- A result computed on the datapath writes nothing of the context. -/
theorem endsOk_computed (s : State) (out : List Item) :
    EndsOk out s (s.releaseDatapath.respond .ok out) :=
  ⟨rfl, rfl, ⟨rfl, rfl, rfl, rfl, rfl, rfl⟩, rfl, rfl⟩

theorem finRange_drop_eq_cons {N : Nat} (t : Fin N) :
    (List.finRange N).drop t.val = t :: (List.finRange N).drop (t.val + 1) := by
  rw [List.drop_eq_getElem_cons (by simp)]
  simp

theorem finRange_drop_self (N : Nat) : (List.finRange N).drop N = [] :=
  List.drop_of_length_le (by simp)

/-- What holds at index `n` and is taken from each index to the next by `f` holds at the end of the
fold of `f` over the indices from `n` on. -/
theorem foldl_finRange_drop_induction {α : Type} {N n : Nat} {P : Nat → α → Prop}
    {f : α → Fin N → α} {a : α} (hn : n ≤ N) (ha : P n a)
    (hstep : ∀ (t : Fin N) (a : α), n ≤ t.val → P t.val a → P (t.val + 1) (f a t)) :
    P N (((List.finRange N).drop n).foldl f a) := by
  induction hk : N - n generalizing n a with
  | zero =>
    obtain rfl : n = N := by omega
    rw [finRange_drop_self]
    exact ha
  | succ k ih =>
    have hlt : n < N := by omega
    rw [finRange_drop_eq_cons ⟨n, hlt⟩, List.foldl_cons]
    exact ih (n := n + 1) hlt (hstep ⟨n, hlt⟩ a le_rfl ha)
      (fun t b ht => hstep t b (Nat.le_of_succ_le ht)) (by omega)

/-- `W[0..n-1]` are the schedule of block `m`: the block, then the recurrence of R136. -/
structure ScheduledBelow (m : Vector Word32 16) (n : Nat) (w : Vector Word32 64) : Prop where
  block : ∀ j : Fin 16, w[j.val] = m[j]
  recurrence : ∀ j : Fin 48, j.val + 16 < n → w[j.val + 16] =
    add32 (sSigma1 w[j.val + 14]) [w[j.val + 9], sSigma0 w[j.val + 1], w[j.val]]

theorem loadBlock_scheduledBelow (w : Vector Word32 64) (m : Vector Word32 16) :
    ScheduledBelow m 16 (loadBlock w m) where
  block j := by simp [loadBlock]
  recurrence j hj := by omega

theorem schedStep_get_self (w : Vector Word32 64) (j : Fin 48) :
    (schedStep w ⟨j.val + 16, by omega⟩)[j.val + 16] =
      add32 (sSigma1 w[j.val + 14]) [w[j.val + 9], sSigma0 w[j.val + 1], w[j.val]] := by
  rw [schedStep, Vector.getElem_set_self]
  rfl

theorem schedStep_get_of_lt (w : Vector Word32 64) {t : Fin 64} {i : Nat} (h : i < t.val) :
    (schedStep w t)[i] = w[i] :=
  Vector.getElem_set_ne _ _ h.ne'

/-- A step extends the schedule by its own index: the recurrence reads earlier indices only. -/
theorem ScheduledBelow.schedStep {m : Vector Word32 16} {w : Vector Word32 64} {t : Fin 64}
    (ht : 16 ≤ t.val) (h : ScheduledBelow m t.val w) :
    ScheduledBelow m (t.val + 1) (schedStep w t) where
  block j := by rw [schedStep_get_of_lt w (by omega), h.block j]
  recurrence j hj := by
    rw [schedStep_get_of_lt w (i := j.val + 14) (by omega),
      schedStep_get_of_lt w (i := j.val + 9) (by omega),
      schedStep_get_of_lt w (i := j.val + 1) (by omega),
      schedStep_get_of_lt w (i := j.val) (by omega)]
    obtain hlt | heq := Nat.lt_or_eq_of_le (Nat.le_of_lt_succ hj)
    · rw [schedStep_get_of_lt w hlt, h.recurrence j hlt]
    · obtain ⟨_, ht64⟩ := t
      subst heq
      exact schedStep_get_self w j

/-- The 48 steps of R136 after the block is loaded, whatever `W` held before. -/
theorem foldl_schedStep_scheduled (w : Vector Word32 64) (m : Vector Word32 16) :
    ScheduledBelow m 64 (((List.finRange 64).drop 16).foldl schedStep (loadBlock w m)) :=
  foldl_finRange_drop_induction (P := ScheduledBelow m) (by decide) (loadBlock_scheduledBelow w m)
    fun _ _ ht h => h.schedStep ht

theorem schedule_scheduled (m : Vector Word32 16) : ScheduledBelow m 64 (schedule m) :=
  foldl_schedStep_scheduled _ m

theorem schedule_recurrence (m : Vector Word32 16) (j : Fin 48) :
    (schedule m)[j.val + 16] = add32 (sSigma1 (schedule m)[j.val + 14])
      [(schedule m)[j.val + 9], sSigma0 (schedule m)[j.val + 1], (schedule m)[j.val]] :=
  (schedule_scheduled m).recurrence j (by omega)

/-- Settles O31: SCHED returns the schedule, computed index by index from final values. -/
theorem schedCommand : Obligations.SchedCommand := by
  unfold Obligations.SchedCommand
  exact fun s m hp => ⟨schedule m, _, onWords_of _ hp, endsOk_computed s _,
    (schedule_scheduled m).block, schedule_recurrence m⟩

/-! ### A round and a block (R137 to R139) -/

theorem ofWords_append {j k : Nat} (a : Vector Word32 j) (b : Vector Word32 k) :
    ofWords (a ++ b) = ofWords a ++ ofWords b := by
  simp [ofWords]

theorem takeWords_append {j k : Nat} (a : Vector Word32 j) (b : Vector Word32 k) :
    takeWords j (a ++ b) (Nat.le_add_right j k) = a := by
  ext1 i hi
  simp [takeWords]

theorem ofFn_append_right {j k : Nat} (a : Vector Word32 j) (b : Vector Word32 k) :
    (Vector.ofFn fun i : Fin k => (a ++ b)[j + i.val]) = b := by
  ext1 i hi
  simp

/-- ROUND on the working registers and the schedule's word. -/
theorem execRound_of {s : State} (t : Fin 64) {wr : Vector Word32 8} {wt : Word32}
    (hp : s.payload = ofWords (wr ++ #v[wt])) :
    execRound t s = complete s.releaseDatapath (ofWords (roundStep t wr wt)) := by
  rw [execRound, onWords_of (k := 9) _ hp, takeWords_append]
  simp

/-- COMPRESS on a state and a block. -/
theorem execCompress_of {s : State} {st : Vector Word32 8} {m : Vector Word32 16}
    (hp : s.payload = ofWords st ++ ofWords m) :
    execCompress s = complete s.releaseDatapath (ofWords (compress st m)) := by
  rw [execCompress, onWords_of (k := 24) _ (hp.trans (ofWords_append st m).symm), takeWords_append,
    ofFn_append_right]

/-- Settles O32: ROUND is `roundStep`, whose eight words read the presented ones. -/
theorem roundCommand : Obligations.RoundCommand := by
  unfold Obligations.RoundCommand
  exact fun s t a b c d e f g h wt hp =>
    ⟨_, execRound_of t (wr := #v[a, b, c, d, e, f, g, h]) hp, endsOk_computed s _⟩

/-- The working registers before round `n` of a compression from state `st` on schedule `w`. -/
def roundsBefore (w : Vector Word32 64) (st : Vector Word32 8) (n : Nat) : Vector Word32 8 :=
  ((List.finRange 64).take n).foldl (fun wr t => roundStep t wr w[t]) st

theorem roundsBefore_succ (w : Vector Word32 64) (st : Vector Word32 8) (t : Fin 64) :
    roundsBefore w st (t.val + 1) = roundStep t (roundsBefore w st t.val) w[t] := by
  rw [roundsBefore, List.take_succ_eq_append_getElem (by simp), List.foldl_append]
  simp [roundsBefore]

/-- Steps 2 to 4 of R138. -/
theorem compress_eq (st : Vector Word32 8) (m : Vector Word32 16) :
    compress st m = finalAdd st (roundsBefore (schedule m) st 64) := by
  rw [roundsBefore, List.take_of_length_le (by simp), compress]

theorem compress_get (st : Vector Word32 8) (m : Vector Word32 16) (i : Fin 8) :
    (compress st m)[i] = add32 st[i] [(roundsBefore (schedule m) st 64)[i]] := by
  rw [compress_eq, finalAdd, Fin.getElem_fin, Vector.getElem_ofFn]

/-- Settles O33: COMPRESS is `compress`, with the block's schedule and the registers before each
round as the witnesses. -/
theorem compressCommand : Obligations.CompressCommand := by
  unfold Obligations.CompressCommand
  exact fun s st m hp =>
    ⟨compress st m, schedule m, roundsBefore (schedule m) st, _, execCompress_of hp,
      endsOk_computed s _, (schedule_scheduled m).block, schedule_recurrence m, rfl,
      roundsBefore_succ (schedule m) st, compress_get st m⟩

/-! ### The sequencer (R140) -/

/-- A whole schedule is fixed by its block, by strong induction on the index. -/
theorem ScheduledBelow.unique {m : Vector Word32 16} {v w : Vector Word32 64}
    (hv : ScheduledBelow m 64 v) (hw : ScheduledBelow m 64 w) : v = w := by
  ext1 i hi
  induction i using Nat.strong_induction_on with
  | _ i ih =>
    obtain hlow | hhigh := Nat.lt_or_ge i 16
    · exact (hv.block ⟨i, hlow⟩).trans (hw.block ⟨i, hlow⟩).symm
    · obtain ⟨j, rfl⟩ := Nat.exists_eq_add_of_le' hhigh
      have hj : j < 48 := by omega
      rw [hv.recurrence ⟨j, hj⟩ hi, hw.recurrence ⟨j, hj⟩ hi, ih (j + 14) (by omega),
        ih (j + 9) (by omega), ih (j + 1) (by omega), ih j (by omega)]

/-- What `W` held before the block was loaded is all overwritten. -/
theorem foldl_schedStep_eq_schedule (w : Vector Word32 64) (m : Vector Word32 16) :
    ((List.finRange 64).drop 16).foldl schedStep (loadBlock w m) = schedule m :=
  (foldl_schedStep_scheduled w m).unique (schedule_scheduled m)

section MicroSteps

variable (st : Vector Word32 8) (m : Vector Word32 16)

theorem microRun_add (k l : Nat) (q : SeqPos) :
    microRun st m (k + l) q = microRun st m l (microRun st m k q) := by
  induction k generalizing q with
  | zero => rw [Nat.zero_add, microRun]
  | succ k ih => rw [Nat.succ_add, microRun, ih, microRun]

/-- A position in the SCHEDULE phase. -/
def schedulePos (wr : Vector Word32 8) (w : Vector Word32 64) (t : Fin 64) : SeqPos :=
  { phase := .schedule, dp := { wr := wr, w := w, t := t } }

/-- A position in the ROUNDS phase. -/
def roundsPos (w : Vector Word32 64) (wr : Vector Word32 8) (t : Fin 64) : SeqPos :=
  { phase := .rounds, dp := { wr := wr, w := w, t := t } }

/-- The position in which the sequencer ends. -/
def finalPos (w : Vector Word32 64) (wr : Vector Word32 8) : SeqPos :=
  { phase := .final, dp := { wr := wr, w := w, t := 63 } }

theorem nextCount_of_lt {t : Fin 64} (h : t.val + 1 < 64) : nextCount t = ⟨t.val + 1, h⟩ :=
  dif_pos h

theorem microRun_load (dp : Datapath) :
    microRun st m 1 { phase := .load, dp := dp } = schedulePos st (loadBlock dp.w m) 16 := rfl

theorem microStep_schedule_of_lt (wr : Vector Word32 8) (w : Vector Word32 64) {t : Fin 64}
    (h : t.val + 1 < 64) :
    microStep st m (schedulePos wr w t) = schedulePos wr (schedStep w t) ⟨t.val + 1, h⟩ := by
  rw [← nextCount_of_lt h]
  exact if_neg (show t.val ≠ 63 by omega)

theorem microStep_schedule_last (wr : Vector Word32 8) (w : Vector Word32 64) :
    microStep st m (schedulePos wr w 63) = roundsPos (schedStep w 63) wr 0 := rfl

theorem microStep_rounds_of_lt (w : Vector Word32 64) (wr : Vector Word32 8) {t : Fin 64}
    (h : t.val + 1 < 64) :
    microStep st m (roundsPos w wr t) = roundsPos w (roundStep t wr w[t]) ⟨t.val + 1, h⟩ := by
  rw [← nextCount_of_lt h]
  exact if_neg (show t.val ≠ 63 by omega)

theorem microStep_rounds_last (w : Vector Word32 64) (wr : Vector Word32 8) :
    microStep st m (roundsPos w wr 63) = finalPos w (roundStep 63 wr w[63]) := rfl

variable {st m}

/-- A phase that applies `f` at each count up to 63 and then ends is the fold of `f` over the counts
that are left. -/
theorem microRun_phase {α : Type} {pos : α → Fin 64 → SeqPos} {done : α → SeqPos}
    {f : α → Fin 64 → α}
    (hnext : ∀ a (t : Fin 64) (h : t.val + 1 < 64),
      microStep st m (pos a t) = pos (f a t) ⟨t.val + 1, h⟩)
    (hlast : ∀ a, microStep st m (pos a 63) = done (f a 63))
    {k : Nat} {t : Fin 64} (hk : t.val + k = 63) (a : α) :
    microRun st m (k + 1) (pos a t) = done (((List.finRange 64).drop t.val).foldl f a) := by
  rw [microRun, finRange_drop_eq_cons, List.foldl_cons]
  induction k generalizing t a with
  | zero =>
    obtain rfl : t = 63 := Fin.ext hk
    rw [hlast, microRun, show (63 : Fin 64).val + 1 = 64 from rfl, finRange_drop_self,
      List.foldl_nil]
  | succ k ih =>
    have hlt : t.val + 1 < 64 := by omega
    have hk' : t.val + 1 + k = 63 := by omega
    rw [hnext a t hlt, microRun, ih (t := ⟨t.val + 1, hlt⟩) hk',
      finRange_drop_eq_cons ⟨t.val + 1, hlt⟩, List.foldl_cons]

variable (st m)

theorem microRun_schedule (wr : Vector Word32 8) (w : Vector Word32 64) :
    microRun st m 48 (schedulePos wr w 16) =
      roundsPos (((List.finRange 64).drop 16).foldl schedStep w) wr 0 :=
  microRun_phase (done := fun w => roundsPos w wr 0)
    (fun w _ => microStep_schedule_of_lt st m wr w) (microStep_schedule_last st m wr) rfl w

theorem microRun_rounds (w : Vector Word32 64) (wr : Vector Word32 8) :
    (microRun st m 64 (roundsPos w wr 0)).dp.wr = roundsBefore w wr 64 := by
  rw [microRun_phase (k := 63) (done := finalPos w) (f := fun wr t => roundStep t wr w[t])
    (fun wr _ => microStep_rounds_of_lt st m w wr) (microStep_rounds_last st m w) rfl wr]
  rfl

/-- The 113 micro-steps are LOAD, 48 of SCHEDULE and 64 of ROUNDS. -/
theorem microRun_wr (dp : Datapath) :
    (microRun st m 113 { phase := .load, dp := dp }).dp.wr = roundsBefore (schedule m) st 64 := by
  rw [show 113 = 1 + 48 + 64 from rfl, microRun_add, microRun_add, microRun_load, microRun_schedule,
    foldl_schedStep_eq_schedule, microRun_rounds]

end MicroSteps

/-- Settles O34: the micro-steps run the two folds of `compress`. -/
theorem sequencerAgrees : Obligations.SequencerAgrees := by
  unfold Obligations.SequencerAgrees
  exact fun dp st m => (congrArg (finalAdd st) (microRun_wr st m dp)).trans (compress_eq st m).symm

end Sys2Proof.Machine

/-! Proofs of 44_native_engine.md: the native engine's digest is the reference SHA256 (R150 to
R152), and HASHX on hex text (R153). -/

namespace Sys2Proof.Machine

/-! ### Bytes and their bits -/

@[simp] theorem toBits_append (m n : List (Fin 256)) : toBits (m ++ n) = toBits m ++ toBits n :=
  List.flatMap_append

theorem toBits_replicate_zero (n : Nat) :
    toBits (List.replicate n 0) = List.replicate (8 * n) .zero := by
  induction n with
  | zero => rfl
  | succ n ih =>
    rw [List.replicate_succ, toBits_cons, ih, Nat.mul_succ, Nat.add_comm, List.replicate_add]
    rfl

/-- A sequence is the bits of bytes when it has their number and each bit where R80 puts it. -/
theorem eq_toBits {es : List FieldBit} {m : List (Fin 256)} (hlen : es.length = 8 * m.length)
    (h : ∀ (j : Nat) (hj : j < m.length) (b : Nat), b < 8 →
      es[8 * j + b]? = some (if m[j].val.testBit (7 - b) then .one else .zero)) :
    es = toBits m := by
  apply List.ext_getElem?
  intro i
  rcases Nat.lt_or_ge i (8 * m.length) with hi | hi
  · have hj : i / 8 < m.length := by omega
    have hb : i % 8 < 8 := Nat.mod_lt i (by decide)
    rw [← Nat.div_add_mod i 8, h _ hj _ hb, toBits_getElem? m _ hj hb]
  · rw [List.getElem?_eq_none (hlen.trans_le hi),
      List.getElem?_eq_none ((toBits_length m).trans_le hi)]

/-- Bit `b` of byte `j`, both sequences continued by zeros. -/
theorem toBits_getD (m : List (Fin 256)) (j : Nat) {b : Nat} (hb : b < 8) :
    (toBits m).getD (8 * j + b) .zero =
      if (m.getD j 0).val.testBit (7 - b) then .one else .zero := by
  rcases Nat.lt_or_ge j m.length with hj | hj
  · rw [List.getD_eq_getElem?_getD, toBits_getElem? m j hj hb, List.getD_eq_getElem m 0 hj]
    rfl
  · rw [List.getD_eq_default m 0 hj, List.getD_eq_default _ _ (by rw [toBits_length]; omega)]
    simp

theorem seqVal_append (a b : List FieldBit) :
    seqVal (a ++ b) = seqVal a * 2 ^ b.length + seqVal b := by
  induction a with
  | nil => simp [seqVal]
  | cons e es ih =>
    rw [List.cons_append, seqVal, seqVal, ih, List.length_append, pow_add]
    ring

theorem seqVal_byteBits (v : Fin 256) : seqVal (byteBits v) = v.val := by
  have hbit (n : Nat) : bitVal (beta (n % 2)) = n % 2 := bitVal_beta (Nat.mod_lt n two_pos)
  simp only [byteBits, List.range_succ, List.range_zero, List.nil_append, List.cons_append,
    List.map_nil, List.map_cons, seqVal, hbit, List.length_cons, List.length_nil]
  omega

/-- The number that bytes spell, most significant first. -/
theorem seqVal_toBits_cons (v : Fin 256) (m : List (Fin 256)) :
    seqVal (toBits (v :: m)) = v.val * 2 ^ (8 * m.length) + seqVal (toBits m) := by
  rw [toBits_cons, seqVal_append, seqVal_byteBits, toBits_length]

/-! ### Padding: the reference's bytes have the bits of the machine's padded message (R81) -/

/-- `n` modulo 2^64 in eight bytes, most significant first. -/
def lengthBytes (n : Nat) : List (Fin 256) :=
  (List.range 8).map fun i => Fin.ofNat 256 (n / 256 ^ (7 - i))

/-- The padded message of the reference, with each byte a `Fin 256`. -/
def paddedBytes (m : List (Fin 256)) : List (Fin 256) :=
  m ++ 0x80 :: (List.replicate ((55 + (64 - m.length % 64)) % 64) 0 ++ lengthBytes (8 * m.length))

theorem refPad_eq_map (m : List (Fin 256)) : refPad m = (paddedBytes m).map Fin.val := by
  simp [refPad, paddedBytes, lengthBytes, Function.comp_def]

theorem be64_eq_toBits (n : Nat) : be64 n = toBits (lengthBytes n) := by
  refine eq_toBits (by simp [lengthBytes]) fun j hj b hb => ?_
  have hj8 : j < 8 := by simpa [lengthBytes] using hj
  have hpow : 256 ^ (7 - j) = 2 ^ (8 * (7 - j)) := by rw [pow_mul]; rfl
  have hmod : ∀ x : Nat, (Fin.ofNat 256 x).val = x % 2 ^ 8 := fun _ => rfl
  have hpos : 63 - (8 * j + b) = 7 - b + 8 * (7 - j) := by omega
  have hlow : 7 - b < 8 := by omega
  rw [List.getElem?_eq_getElem (by rw [be64_length]; omega), be64_get _ _ (by omega), beta_digit]
  simp only [lengthBytes, List.getElem_map, List.getElem_range, hmod, hpow, Nat.testBit_mod_two_pow,
    Nat.testBit_div_two_pow, hpos, hlow, decide_true, Bool.true_and]

theorem toBits_paddedBytes (m : List (Fin 256)) : toBits (paddedBytes m) = pad (toBits m) := by
  have hzeros : padZeros (8 * m.length) = 7 + 8 * ((55 + (64 - m.length % 64)) % 64) := by
    rw [padZeros]; omega
  have hmark : byteBits 0x80 = .one :: List.replicate 7 .zero := rfl
  rw [paddedBytes, pad_eq, toBits_length, hzeros, List.replicate_add, be64_eq_toBits, toBits_append,
    toBits_cons, toBits_append, toBits_replicate_zero, hmark, List.cons_append, List.append_assoc]

/-! ### Blocks and the fold over them (R150) -/

/-- Word `k` of a block of bytes' bits is the bits of four bytes. -/
theorem blockAt_toBits_word (p : List (Fin 256)) (j : Nat) {k : Nat} (hk : k < 16) :
    (blockAt (toBits p) j)[k].toList =
      toBits ((List.range 4).map fun b => p.getD (64 * j + 4 * k + b) 0) := by
  refine eq_toBits (by simp) fun q hq b hb => ?_
  have hq4 : q < 4 := by simpa using hq
  have hpos : 512 * j + 32 * k + (8 * q + b) = 8 * (64 * j + 4 * k + q) + b := by omega
  rw [Vector.getElem?_toList, Vector.getElem?_eq_getElem (by omega)]
  simp only [blockAt, Vector.getElem_ofFn, hpos, toBits_getD p _ hb, List.getElem_map,
    List.getElem_range]

theorem toNum_blockAt_toBits (p : List (Fin 256)) (j : Nat) {k : Nat} (hk : k < 16) :
    toNum (blockAt (toBits p) j)[k] = refWord (p.map Fin.val) j k := by
  have hbyte (a : Nat) : (p.map Fin.val).getD a 0 = (p.getD a 0).val := List.getD_map p 0 Fin.val
  rw [toNum, val, blockAt_toBits_word p j hk, refWord]
  simp only [hbyte, List.range_succ, List.range_zero, List.nil_append, List.cons_append,
    List.map_cons, List.map_nil, seqVal_toBits_cons]
  simp [seqVal, Nat.add_assoc]

/-- Block `j` of padded bytes, as the reference reads it. -/
def refBlock (p : List Nat) (j : Nat) : Vector (BitVec 32) 16 :=
  Vector.ofFn fun k : Fin 16 => refWord p j k.val

theorem toNums_blockAt_toBits (p : List (Fin 256)) (j : Nat) :
    toNums (blockAt (toBits p) j) = refBlock (p.map Fin.val) j := by
  ext1 k hk
  rw [toNums_get, toNum_blockAt_toBits p j hk, refBlock, Vector.getElem_ofFn]

theorem toNums_foldBlocks (p : List (Fin 256)) (n : Nat) (st : Vector Word32 8) :
    toNums (foldBlocks (toBits p) n st) =
      (List.range n).foldl (fun acc j => refCompress acc (refBlock (p.map Fin.val) j))
        (toNums st) := by
  rw [foldBlocks]
  refine (List.foldl_hom toNums fun acc j => ?_).symm
  rw [toNums_compress, toNums_blockAt_toBits]

theorem toNums_romHAll :
    toNums romHAll = Vector.ofFn fun i : Fin 8 => BitVec.ofNat 32 romHHex[i] := by
  ext1 i hi
  rw [toNums_get, romHAll, Vector.getElem_ofFn, Vector.getElem_ofFn, toNum_romH]

/-- The native engine is the reference, message by message (R152). -/
theorem toNums_native (m : List (Fin 256)) : toNums (native m) = referenceSha256 m := by
  have hblocks : (toBits (paddedBytes m)).length / 512 = (refPad m).length / 64 := by
    rw [refPad_eq_map, List.length_map, toBits_length]; omega
  rw [native, nativeBits, ← toBits_paddedBytes, hblocks, toNums_foldBlocks, toNums_romHAll,
    ← refPad_eq_map]
  rfl

/-! ### HASH (R151) -/

/-- HASH on bytes within the limits of R83. -/
theorem execHash_of {s : State} {m : List (Fin 256)} (hp : s.payload = ofBytes m)
    (hfit : messageFits s.maxMsgBits (8 * m.length) = true) :
    execHash s = complete s.releaseDatapath (ofWords (native m)) := by
  rw [execHash_eq, bytesOf_eq.2 hp]
  exact if_pos hfit

/-- Settles O36: within the limits HASH completes with `native`, which is the reference. -/
theorem hashEqualsReference : Obligations.HashEqualsReference := by
  unfold Obligations.HashEqualsReference
  exact fun s m hp hlt hcap => ⟨native m, _, execHash_of hp (messageFits_of hlt hcap),
    endsOk_computed s _, toNums_native m⟩

/-- A digest's values are its numbers'. -/
theorem toList_map_val {n : Nat} (v : Vector Word32 n) :
    v.toList.map val = (toNums v).toList.map BitVec.toNat := by
  apply List.ext_getElem
  · simp
  · simp [toNum_toNat]

/-- Settles O38, by evaluation of the reference. -/
theorem emptyMessageDigest : Obligations.EmptyMessageDigest := by
  unfold Obligations.EmptyMessageDigest
  rw [toList_map_val, toNums_native]
  decide +kernel

/-! ### HASHX (R153) -/

/-- Characters `2·j` and `2·j + 1` are the hex digits of `v`, high digit first. -/
def SpellsByteAt (cs : List Nat) (j : Nat) (v : Fin 256) : Prop :=
  ∃ hi lo c d, cs[2 * j]? = some c ∧ cs[2 * j + 1]? = some d ∧
    hexval c = some hi ∧ hexval d = some lo ∧ v.val = 16 * hi + lo

/-- The bits of a byte are the bits of its two digits (R42, R84). -/
theorem byteBits_eq_nibbleBits {v : Fin 256} {hi lo : Nat} (hv : v.val = 16 * hi + lo)
    (hlo : lo < 16) : byteBits v = nibbleBits hi ++ nibbleBits lo := by
  simp only [byteBits, nibbleBits, List.range_succ, List.range_zero, List.nil_append,
    List.cons_append, List.map_nil, List.map_cons, List.cons.injEq, and_true]
  refine ⟨?_, ?_, ?_, ?_, ?_, ?_, ?_, ?_⟩
  all_goals exact congrArg beta (by omega)

/-- Hex text has the bits of the bytes it spells, by induction on the bytes. -/
theorem digitsToBits_of_spells : ∀ {m : List (Fin 256)} {cs : List Nat},
    cs.length = 2 * m.length → (∀ (j : Nat) (hj : j < m.length), SpellsByteAt cs j m[j]) →
    digitsToBits cs = some (toBits m)
  | [], [], _, _ => rfl
  | v :: m, c :: d :: cs, hlen, h => by
    have hlen' : cs.length = 2 * m.length := by
      simp only [List.length_cons] at hlen
      omega
    obtain ⟨hi, lo, _, _, ⟨⟩, ⟨⟩, hc, hd, hv⟩ := h 0 (Nat.succ_pos _)
    have hrest := digitsToBits_of_spells hlen' fun j hj => h (j + 1) (Nat.succ_lt_succ hj)
    rw [toBits_cons, byteBits_eq_nibbleBits (v := v) hv (hexval_lt hd), List.append_assoc]
    exact digitsToBits_cons_eq_some.2 ⟨hi, hc, _,
      digitsToBits_cons_eq_some.2 ⟨lo, hd, _, hrest, rfl⟩, rfl⟩

/-- HASHX on text within the limits of R83. -/
theorem execHashX_of {s : State} {cs : List Nat} (hp : s.payload = ofChars cs)
    (hfit : messageFits s.maxMsgBits (4 * cs.length) = true) :
    execHashX s = orFormatError s (hexToBits cs)
      fun b => complete s.releaseDatapath (ofWords (nativeBits b)) := by
  rw [execHashX_eq, charsOf_eq.2 hp]
  exact if_pos hfit

/-- Settles O37: within the limits HASHX answers what `hexToBits` gives. -/
theorem hashHexCommand : Obligations.HashHexCommand := by
  unfold Obligations.HashHexCommand
  intro s cs hp hlt hcap
  have hrun := execHashX_of hp (messageFits_of hlt hcap)
  refine ⟨fun m hlen hspell => ?_, fun hbad => ?_⟩
  · have hbits : hexToBits cs = some (toBits m) :=
      (hexToBits_of_even (by omega)).trans
        (digitsToBits_of_spells hlen fun j hj => hspell ⟨j, hj⟩)
    rw [hbits] at hrun
    exact ⟨_, hrun, endsOk_computed s _⟩
  · rw [hexToBits_eq_none.2 hbad] at hrun
    exact ⟨_, hrun, endsWithError_raise s _⟩

end Sys2Proof.Machine

/-! Proofs of 45_dynamic_engine.md: DINIT (R161), DSTEP's refusals and runs of DSTEPs (R163 to R165),
DDROP (R168), and what follows from a run: agreement with the native engine (R166) and resumption from
a checkpoint (R169). -/

namespace Sys2Proof.Machine

/-! ### DINIT (R161) -/

/-- DINIT within the limits whose checks pass. -/
theorem execDInit_ok {s : State} {o : InitOperands} (hp : s.payload = ofInit o)
    (hlt : o.message.length < 2 ^ 64) (hcap : o.message.length ≤ s.maxMsgBits)
    (hidx : o.index < 2 ^ 64) (hok : initError o = none) :
    exec (.dInit o.prior.isSome) s = .next ((initContext o s).respond .ok []) := by
  refine (execDInit_of hp hlt hcap hidx).trans ?_
  rw [runInit, hok]
  rfl

/-- Settles O40: with every check passed DINIT leaves `initContext`. -/
theorem initConstructsContext : Obligations.InitConstructsContext := by
  unfold Obligations.InitConstructsContext
  intro s p idx prior hp hidx hlt hcap hal hprior hblk
  refine ⟨_, execDInit_ok hp hlt hcap hidx (initError_none.2 ⟨hal, hprior, hblk⟩), rfl, rfl, rfl,
    rfl, ?_, ?_, rfl, rfl, ⟨rfl, rfl⟩, rfl, rfl⟩
  · rintro st rfl
    rfl
  · rintro rfl i
    exact Vector.getElem_ofFn i.isLt

/-! ### DSTEP: the refusals (R164, R165) and one block consumed (R163) -/

/-- DSTEP with no context or no block left is an error. -/
theorem execDStep_refused {s : State} (hp : s.payload = [])
    (h : s.phase = .empty ∨ s.nblk ≤ s.idx) : execDStep s = fail s .configurationError := by
  by_cases ctx : s.phase = .empty
  · exact execDStep_empty hp ctx
  · rw [execDStep_of hp ctx, consumeBlock, if_pos (h.resolve_left ctx)]

/-- Settles O43: the error of R164 and R165 writes one log bit. -/
theorem stepRefusedWithoutBlock : Obligations.StepRefusedWithoutBlock := by
  unfold Obligations.StepRefusedWithoutBlock
  exact fun s hp h => ⟨_, execDStep_refused hp h, endsWithError_raise s _⟩

/-- The state a DSTEP that consumes a block leaves. -/
def afterDStep (s : State) : State :=
  (advance (blockAt s.msg s.idx) s).releaseDatapath.respond .ok
    (ofWords (compress s.hs (blockAt s.msg s.idx)))

/-- A context with at least `n` blocks left, all inside MSG, and an empty payload on the port: `n`
DSTEPs will be answered with OK. -/
structure BlocksLeft (n : Nat) (s : State) : Prop where
  payload : s.payload = []
  ctx : s.phase ≠ .empty
  left : s.idx + n ≤ s.nblk
  inside : 512 * s.nblk ≤ s.msg.length

theorem exec_dStep_of_blocksLeft {n : Nat} {s : State} (h : BlocksLeft (n + 1) s) :
    exec .dStep s = .next (afterDStep s) := by
  obtain ⟨hp, ctx, hleft, hin⟩ := h
  exact (execDStep_of hp ctx).trans (consumeBlock_of (by omega) (by omega))

theorem BlocksLeft.afterDStep {n : Nat} {s : State} (h : BlocksLeft (n + 1) s) :
    BlocksLeft n (afterDStep s) where
  payload := rfl
  ctx := nofun
  left := (Nat.add_right_comm s.idx 1 n).trans_le h.left
  inside := h.inside

/-! ### A run of DSTEPs -/

/-- A run of DSTEPs with a block for each is an iteration of `afterDStep`. -/
theorem dStepTimes_of_blocksLeft {n : Nat} {s : State} (h : BlocksLeft n s) :
    dStepTimes n s = .next (afterDStep^[n] s) := by
  induction n generalizing s with
  | zero => rfl
  | succ n ih =>
    rw [dStepTimes, exec_dStep_of_blocksLeft h]
    exact ih h.afterDStep

/-- The compression function folded over `n` blocks from block `i` on. -/
def foldBlocksFrom (p : List FieldBit) (i n : Nat) (st : Vector Word32 8) : Vector Word32 8 :=
  (List.range n).foldl (fun acc j => compress acc (blockAt p (i + j))) st

theorem foldBlocksFrom_succ (p : List FieldBit) (i n : Nat) (st : Vector Word32 8) :
    foldBlocksFrom p i (n + 1) st = compress (foldBlocksFrom p i n st) (blockAt p (i + n)) := by
  rw [foldBlocksFrom, List.range_succ, List.foldl_append]
  rfl

/-- From block 0 it is the native engine's fold (R150). -/
theorem foldBlocksFrom_zero (p : List FieldBit) (n : Nat) (st : Vector Word32 8) :
    foldBlocksFrom p 0 n st = foldBlocks p n st := by
  simp only [foldBlocksFrom, foldBlocks, Nat.zero_add]

/-- What a run of `n` consumed blocks makes of `s`: HS and IDX move on, the rest of the context and
the error log stay, and the last DSTEP, if there is one, answers with the new HS. -/
structure SteppedBy (n : Nat) (s t : State) : Prop where
  hs : t.hs = foldBlocksFrom s.msg s.idx n s.hs
  idx : t.idx = s.idx + n
  nblk : t.nblk = s.nblk
  msg : t.msg = s.msg
  errlog : t.errlog = s.errlog
  payload : t.payload = []
  phase : 1 ≤ n → t.phase = .advanced
  response : 1 ≤ n → t.response = some { status := .ok, payload := ofWords t.hs }

theorem steppedBy_iterate {s : State} (hp : s.payload = []) (n : Nat) :
    SteppedBy n s (afterDStep^[n] s) := by
  induction n with
  | zero => exact ⟨rfl, rfl, rfl, rfl, rfl, hp, nofun, nofun⟩
  | succ n ih =>
    rw [Function.iterate_succ_apply']
    refine ⟨?_, congrArg (· + 1) ih.idx, ih.nblk, ih.msg, ih.errlog, rfl, fun _ => rfl,
      fun _ => rfl⟩
    rw [foldBlocksFrom_succ, ← ih.hs, ← ih.idx, ← ih.msg]
    rfl

/-- The run of DSTEPs, said once: with a block for each, all are answered. -/
theorem dStepTimes_steppedBy {n : Nat} {s : State} (h : BlocksLeft n s) :
    ∃ t, dStepTimes n s = .next t ∧ SteppedBy n s t :=
  ⟨_, dStepTimes_of_blocksLeft h, steppedBy_iterate h.payload n⟩

/-- A legal state's context has the blocks that its counters say. -/
theorem StateInv.blocksLeft {s : State} (h : StateInv s) (hp : s.payload = [])
    (ctx : s.phase ≠ .empty) {n : Nat} (hn : n ≤ s.nblk - s.idx) : BlocksLeft n s where
  payload := hp
  ctx := ctx
  left := by
    have := h.idx_le
    omega
  inside := h.aligned.ge

/-- Settles O48: every DSTEP of the run has a block, and after the last none is left. -/
theorem acceptsExactlyRemainingBlocks : Obligations.AcceptsExactlyRemainingBlocks := by
  unfold Obligations.AcceptsExactlyRemainingBlocks
  intro s hs hp ctx
  refine ⟨fun k hk hle => ?_, ?_⟩
  · obtain ⟨t, hrun, e⟩ := dStepTimes_steppedBy (hs.blocksLeft hp ctx hle)
    exact ⟨t, hrun, e.idx, e.phase hk, e.response hk, e.errlog⟩
  · obtain ⟨t, hrun, e⟩ := dStepTimes_steppedBy (hs.blocksLeft hp ctx le_rfl)
    have hend : t.nblk ≤ t.idx := by
      rw [e.nblk, e.idx]
      omega
    exact ⟨t, _, hrun, execDStep_refused e.payload (.inr hend), endsWithError_raise t _⟩

/-! ### A run after a DINIT (R166, R169) -/

/-- A context just constructed has the blocks from its index on. -/
theorem blocksLeft_initContext (o : InitOperands) (s : State) {n : Nat}
    (hn : o.index + n ≤ o.message.length / 512) :
    BlocksLeft n ((initContext o s).respond .ok []) where
  payload := rfl
  ctx := nofun
  left := hn
  inside := Nat.mul_div_le _ _

theorem pad_blocks_pos (m : List FieldBit) : 0 < (pad m).length / 512 := by
  rw [pad_length, paddedLength_blocks]
  omega

/-- Settles O46: the run's HS is the native engine's fold over the same blocks. -/
theorem dynamicAgreesWithNative : Obligations.DynamicAgreesWithNative := by
  unfold Obligations.DynamicAgreesWithNative
  intro s m hp hlt hcap
  have hpos := pad_blocks_pos (toBits m)
  have hinit := execDInit_ok hp hlt hcap (Nat.two_pow_pos 64)
    (initError_none.2 ⟨pad_aligned _, fun _ => rfl, hpos⟩)
  have hrun {j : Nat} (hj : j ≤ (pad (toBits m)).length / 512) :=
    dStepTimes_steppedBy (blocksLeft_initContext
      { message := pad (toBits m), index := 0, prior := none } s ((Nat.zero_add j).trans_le hj))
  refine ⟨_, hinit, fun j hj hle => ?_, ?_⟩
  · obtain ⟨t, ht, e⟩ := hrun hle
    have hhs : t.hs = foldBlocks (pad (toBits m)) j romHAll :=
      e.hs.trans (foldBlocksFrom_zero _ _ _)
    exact ⟨t, ht, hhs ▸ e.response hj⟩
  · obtain ⟨t, ht, e⟩ := hrun le_rfl
    have hhs : t.hs = native m := e.hs.trans (foldBlocksFrom_zero _ _ _)
    exact ⟨t, ht, hhs ▸ e.response hpos, hhs, by rw [e.idx, e.nblk]; exact Nat.zero_add _⟩

/-- What two runs of one length answer depends on HS, IDX and MSG at their start. -/
theorem SteppedBy.agree {n : Nat} {s s' t t' : State} (e : SteppedBy n s t)
    (e' : SteppedBy n s' t') (hn : 1 ≤ n) (hhs : s'.hs = s.hs) (hidx : s'.idx = s.idx)
    (hmsg : s'.msg = s.msg) : t'.response = t.response ∧ t'.hs = t.hs ∧ t'.idx = t.idx := by
  have hhs' : t'.hs = t.hs := by rw [e'.hs, e.hs, hhs, hidx, hmsg]
  exact ⟨by rw [e'.response hn, e.response hn, hhs'], hhs', by rw [e'.idx, e.idx, hidx]⟩

/-- Settles O47: the reloaded context has HS, IDX and MSG from the checkpoint. -/
theorem resumeFromCheckpoint : Obligations.ResumeFromCheckpoint := by
  unfold Obligations.ResumeFromCheckpoint
  intro s s₀ hs hp _ hlt hp₀ hcap
  have hal := hs.aligned
  have hlim := hs.below_limit
  have ctx : s.phase ≠ .empty := fun h => by
    have := hs.empty_zero h
    omega
  have hinit := execDInit_ok hp₀ hlim hcap (show s.idx < 2 ^ 64 by omega)
    (initError_none.2 ⟨show s.msg.length % 512 = 0 by omega, nofun,
      show s.idx < s.msg.length / 512 by omega⟩)
  refine ⟨_, hinit, fun k hk hle => ?_⟩
  obtain ⟨t, hrun, e⟩ := dStepTimes_steppedBy (hs.blocksLeft hp ctx hle)
  obtain ⟨t₁, hrun₁, e₁⟩ := dStepTimes_steppedBy (blocksLeft_initContext
    { message := s.msg, index := s.idx, prior := some s.hs } s₀ (n := k) (by dsimp only; omega))
  exact ⟨t, t₁, hrun, hrun₁, e.agree e₁ hk rfl rfl rfl⟩

/-! ### DDROP (R168) -/

/-- Settles O45: DDROP leaves `dropContext`, with or without a context. -/
theorem dropDiscardsContext : Obligations.DropDiscardsContext := by
  unfold Obligations.DropDiscardsContext
  intro s hp
  refine ⟨_, onNone_of _ hp, rfl, dropContext_phase s, dropContext_errlog s, dropContext_dp s,
    dropContext_pending s, dropContext_maxMsgBits s, fun ctx => ?_, fun ctx => ?_⟩
  · obtain ⟨hidx, hnblk⟩ := dropContext_counters ctx
    exact ⟨hidx, hnblk, by simp [dropContext_of_ne ctx]⟩
  · rw [dropContext_empty ctx]
    exact endsPure_respond s []

end Sys2Proof.Machine

/-! Proofs of 60_exceptions.md: every command is answered (R183, R208), an error writes the error log
alone (R183), and a failed command fails again in the same way (R186). -/

namespace Sys2Proof.Machine

/-! ### Every command is answered -/

/-- While a block is left, the block at IDX lies inside MSG (R50). -/
theorem StateInv.block_inside {s : State} (h : StateInv s) (lt : s.idx < s.nblk) :
    512 * s.idx + 512 ≤ s.msg.length := by
  rw [h.aligned]
  omega

/-- In a legal state DSTEP's read of MSG cannot fault, and no other command can. -/
theorem StateInv.exec_isNext {s : State} (h : StateInv s) (i : Instr) : IsNext (exec i s) := by
  by_cases hi : i = .dStep
  · subst hi
    exact isNext_dStep fun _ => h.block_inside
  · exact exec_next hi s

/-- Settles O57: the step waits, runs the decoded command in a state that meets the invariant, or
answers an illegal word. -/
theorem everyCommandAnswered : Obligations.EveryCommandAnswered := by
  unfold Obligations.EveryCommandAnswered
  intro s hs
  cases hp : s.pending with
  | nil => exact ⟨s, stepWaitsWithNoCommand s hp⟩
  | cons c rest =>
    cases hd : decode c.word with
    | ok i =>
      have hport : StateInv { s with pending := rest, payload := c.payload } :=
        hs.of_sameContext ⟨rfl, rfl, rfl, rfl, rfl, rfl⟩
      obtain ⟨t, ht⟩ := hport.exec_isNext i
      exact ⟨t, (stepRunsDecoded s c rest i hp hd).trans ht⟩
    | error e =>
      obtain ⟨t, ht, -⟩ := stepAnswersIllegalWord s c rest e hp hd
      exact ⟨t, ht⟩

/-! ### An error writes the error log alone -/

/-- Of the ways a command can end, only `raise` responds with an error. -/
theorem ends_eq_raise {s t : State} {k : ErrorKind} {out : List Item} (h : Ends s t)
    (hr : t.response = some { status := .error k, payload := out }) : t = s.raise k := by
  cases h with
  | error _ =>
    cases hr
    rfl
  | _ => cases hr

/-- Settles O50: a command that ends with an error leaves the state of `raise`. -/
theorem errorsChangeOnlyTheLog : Obligations.ErrorsChangeOnlyTheLog := by
  unfold Obligations.ErrorsChangeOnlyTheLog
  intro i s t k out h hr
  obtain rfl := ends_eq_raise (exec_ends h) hr
  exact endsWithError_raise s k

/-! ### A failed command fails again

An error is found from the payload, the context and the capacity: no check reads the error log. -/

theorem complete_ne_fail {s s' : State} {out : List Item} {k : ErrorKind} :
    complete s' out ≠ fail s k := fun h =>
  nomatch congrArg State.response (Host.Outcome.next.inj h)

section Pairs

variable {s s' : State} {k : ErrorKind}

/-- An answer found in two states is the same error in both, if it is one. -/
theorem SameAnswer.fail {r r' : Result} (h : SameAnswer s s' r r') (hr : r = fail s k) :
    r' = fail s' k := by
  obtain ⟨a, ha, ha'⟩ := h
  cases a with
  | pure out => exact absurd (ha.symm.trans hr) complete_ne_fail
  | computed out => exact absurd (ha.symm.trans hr) complete_ne_fail
  | error k' =>
    obtain rfl : k' = k := by
      cases congrArg State.response (next_unique hr ha)
      rfl
    exact ha'

theorem onNone_fail_congr (hp : s'.payload = s.payload) {r r' : Result}
    (hr : r = fail s k → r' = fail s' k) (h : onNone s r = fail s k) :
    onNone s' r' = fail s' k := by
  rw [onNone] at h
  rw [onNone, hp]
  cases hb : noneOf s.payload with
  | true => exact hr (by rwa [hb] at h)
  | false => exact (sameAnswer_fail .illegalCommand).fail (by rwa [hb] at h)

/-- A command that fails fails in the same way wherever the payload, the context and the capacity are
the same. -/
theorem exec_fail_congr (e : SameContext s s') (hp : s'.payload = s.payload) {i : Instr}
    (h : exec i s = fail s k) : exec i s' = fail s' k := by
  cases i with
  | dInit p =>
    obtain ⟨k', hs, hs'⟩ | ⟨o, -, hs, -⟩ := dInit_pair hp e.capacity p
    · exact SameAnswer.fail ⟨.error k', hs, hs'⟩ h
    · exact absurd (hs.symm.trans h) complete_ne_fail
  | dStep =>
    obtain ⟨k', hs, hs'⟩ | ⟨m, -, -, hs, -⟩ | ⟨x, hs, -⟩ := sameDStep_dStep hp e
    · exact SameAnswer.fail ⟨.error k', hs, hs'⟩ h
    · exact absurd (hs.symm.trans h) complete_ne_fail
    · exact nomatch hs.symm.trans h
  | dStat | dDrop => exact onNone_fail_congr hp (fun hr => absurd hr complete_ne_fail) h
  | _ => exact (exec_sameAnswer hp e.capacity rfl).fail h

end Pairs

/-- Settles O51: the error left the context and the capacity, so the command fails again. -/
theorem retryRepeatsError : Obligations.RetryRepeatsError := by
  unfold Obligations.RetryRepeatsError
  intro i s t k h he
  obtain rfl := ends_eq_raise (exec_ends h) he.response
  have e : SameContext s { s.raise k with payload := s.payload } :=
    ⟨rfl, rfl, rfl, rfl, rfl, rfl⟩
  exact ⟨_, exec_fail_congr e rfl h, rfl⟩

end Sys2Proof.Machine
